-- ==== Sys2Proof/Word.lean ====
section
/-! DEFINITION. The machine's words (00_scope.md R6, R8): a byte, a 16-bit address, a register number. -/

namespace Sys2Proof

/-- An 8-bit value: a register's content, a memory byte, an immediate (R6). -/
abbrev Byte := BitVec 8

/-- A 16-bit value: an address, PC, SP, GP, MAR (R6). -/
abbrev Addr := BitVec 16

/-- A register number; all 16 values name a register (10_state.md R20). -/
abbrev Reg := Fin 16

end Sys2Proof
end

