-- ==== Sys2Proof/Machine/OpcodeMap.lean ====
section
/-! DEFINITION. The opcode map (30_encoding.md R89): opcode numbers, mnemonics and instruction formats with their lengths
(R82, R88). -/

namespace Sys2Proof

/-- The instruction formats of R82. -/
inductive Format where
  | f0
  | fi
  | fa
  | frr
  | fri
  | fra
  | fr
  deriving DecidableEq, Repr

/-- The length in bytes of an instruction of the format (R82). -/
def Format.length : Format → Nat
  | .f0 => 1
  | .fi => 2
  | .fa => 3
  | .frr => 2
  | .fri => 3
  | .fra => 4
  | .fr => 2

/-- The formats whose byte 1 is a register byte with a reserved high nibble (R84). -/
def Format.hasRegisterByte : Format → Bool
  | .fri => true
  | .fra => true
  | .fr => true
  | .f0 => false
  | .fi => false
  | .fa => false
  | .frr => false

/-- The 42 assigned opcodes (R89). -/
inductive Opcode where
  | lda | ldi | sta | mov | add | addI | sub | subI | shtL | shtR
  | hlt | jmp | cmp | cmpI
  | beq | bne | ble | bge | blt | bgt
  | beqR | bneR | bleR | bgeR | bltR | bgtR
  | and | or | xor | not
  | endProgram | input | draw | out | call | ret
  | iniP | setP | getP | updP | upiP | getc
  deriving DecidableEq, Repr

/-- The opcode byte (R89). -/
def Opcode.byte : Opcode → Byte
  | .lda => 0x00
  | .ldi => 0x01
  | .sta => 0x02
  | .mov => 0x03
  | .add => 0x04
  | .addI => 0x05
  | .sub => 0x06
  | .subI => 0x07
  | .shtL => 0x08
  | .shtR => 0x09
  | .hlt => 0x0A
  | .jmp => 0x0B
  | .cmp => 0x0C
  | .cmpI => 0x0D
  | .beq => 0x0E
  | .bne => 0x0F
  | .ble => 0x10
  | .bge => 0x11
  | .blt => 0x12
  | .bgt => 0x13
  | .beqR => 0x14
  | .bneR => 0x15
  | .bleR => 0x16
  | .bgeR => 0x17
  | .bltR => 0x18
  | .bgtR => 0x19
  | .and => 0x1A
  | .or => 0x1B
  | .xor => 0x1C
  | .not => 0x1D
  | .endProgram => 0x1E
  | .input => 0x1F
  | .draw => 0x20
  | .out => 0x21
  | .call => 0x22
  | .ret => 0x23
  | .iniP => 0x24
  | .setP => 0x25
  | .getP => 0x26
  | .updP => 0x27
  | .upiP => 0x28
  | .getc => 0x29

/-- The format of the instructions with the opcode (R89). -/
def Opcode.format : Opcode → Format
  | .lda => .fra
  | .ldi => .fri
  | .sta => .fra
  | .mov => .frr
  | .add => .frr
  | .addI => .fri
  | .sub => .frr
  | .subI => .fri
  | .shtL => .frr
  | .shtR => .frr
  | .hlt => .f0
  | .jmp => .fa
  | .cmp => .frr
  | .cmpI => .fri
  | .beq => .fa
  | .bne => .fa
  | .ble => .fa
  | .bge => .fa
  | .blt => .fa
  | .bgt => .fa
  | .beqR => .fi
  | .bneR => .fi
  | .bleR => .fi
  | .bgeR => .fi
  | .bltR => .fi
  | .bgtR => .fi
  | .and => .frr
  | .or => .frr
  | .xor => .frr
  | .not => .frr
  | .endProgram => .f0
  | .input => .f0
  | .draw => .f0
  | .out => .f0
  | .call => .fa
  | .ret => .f0
  | .iniP => .fa
  | .setP => .fr
  | .getP => .fr
  | .updP => .fr
  | .upiP => .fi
  | .getc => .f0

/-- The mnemonic as written in assembly (R89, R94). -/
def Opcode.mnemonic : Opcode → String
  | .lda => "LDA"
  | .ldi => "LDI"
  | .sta => "STA"
  | .mov => "MOV"
  | .add => "ADD"
  | .addI => "ADD.I"
  | .sub => "SUB"
  | .subI => "SUB.I"
  | .shtL => "SHT.L"
  | .shtR => "SHT.R"
  | .hlt => "HLT"
  | .jmp => "JMP"
  | .cmp => "CMP"
  | .cmpI => "CMP.I"
  | .beq => "BEQ"
  | .bne => "BNE"
  | .ble => "BLE"
  | .bge => "BGE"
  | .blt => "BLT"
  | .bgt => "BGT"
  | .beqR => "BEQ.R"
  | .bneR => "BNE.R"
  | .bleR => "BLE.R"
  | .bgeR => "BGE.R"
  | .bltR => "BLT.R"
  | .bgtR => "BGT.R"
  | .and => "AND"
  | .or => "OR"
  | .xor => "XOR"
  | .not => "NOT"
  | .endProgram => "END"
  | .input => "IN"
  | .draw => "DRAW"
  | .out => "OUT"
  | .call => "CALL"
  | .ret => "RET"
  | .iniP => "INI.P"
  | .setP => "SET.P"
  | .getP => "GET.P"
  | .updP => "UPD.P"
  | .upiP => "UPI.P"
  | .getc => "GETC"

/-- All opcodes in the order of their numbers (R89). -/
def Opcode.all : List Opcode :=
  [.lda, .ldi, .sta, .mov, .add, .addI, .sub, .subI, .shtL, .shtR, .hlt, .jmp, .cmp, .cmpI,
   .beq, .bne, .ble, .bge, .blt, .bgt, .beqR, .bneR, .bleR, .bgeR, .bltR, .bgtR,
   .and, .or, .xor, .not, .endProgram, .input, .draw, .out, .call, .ret,
   .iniP, .setP, .getP, .updP, .upiP, .getc]

/-- The opcode a byte stands for; none for the unassigned bytes 42 to 255 (R89, R90). -/
def Opcode.ofByte (b : Byte) : Option Opcode :=
  Opcode.all.find? (fun op => op.byte == b)

/-- Bits 7:4 of a byte as a number: the first register of FRR (R83), the reserved nibble of a register byte (R84). -/
def hiNibble (b : Byte) : Reg := (b.extractLsb' 4 4).toFin

/-- Bits 3:0 of a byte as a register number (R83). -/
def loNibble (b : Byte) : Reg := (b.extractLsb' 0 4).toFin

end Sys2Proof
end

