-- ==== Sys2Proof/Syntax.lean ====
section
/-! DEFINITION. The instruction set: one constructor for each of the 42 opcodes (30_encoding.md R89), operands in assembly
order. Every register number, immediate and address is legal (R91), so the field types carry the ranges. -/

namespace Sys2Proof

/-- The 42 instructions, in the order of their opcode numbers 0 to 41 (R89). -/
inductive Instr where
  | lda (rd : Reg) (addr : Addr)
  | ldi (rd : Reg) (imm : Byte)
  | sta (rs : Reg) (addr : Addr)
  | mov (rd rs : Reg)
  | add (rd rs : Reg)
  | addI (rd : Reg) (imm : Byte)
  | sub (rd rs : Reg)
  | subI (rd : Reg) (imm : Byte)
  | shtL (rd rs : Reg)
  | shtR (rd rs : Reg)
  | hlt
  | jmp (addr : Addr)
  | cmp (ra rb : Reg)
  | cmpI (ra : Reg) (imm : Byte)
  | beq (addr : Addr)
  | bne (addr : Addr)
  | ble (addr : Addr)
  | bge (addr : Addr)
  | blt (addr : Addr)
  | bgt (addr : Addr)
  | beqR (off : Byte)
  | bneR (off : Byte)
  | bleR (off : Byte)
  | bgeR (off : Byte)
  | bltR (off : Byte)
  | bgtR (off : Byte)
  | and (rd rs : Reg)
  | or (rd rs : Reg)
  | xor (rd rs : Reg)
  | not (rd rs : Reg)
  | endProgram
  | input
  | draw
  | out
  | call (addr : Addr)
  | ret
  | iniP (addr : Addr)
  | setP (rs : Reg)
  | getP (rd : Reg)
  | updP (rs : Reg)
  | upiP (imm : Byte)
  | getc
  deriving DecidableEq, Repr

end Sys2Proof
end

