-- ==== Sys2Proof/WellFormed.lean ====
section
/-! DEFINITION. Which byte sequences are the encoding of an instruction, read from the encoding rules themselves and not from the
decoder (30_encoding.md R80, R82, R84, R88, R90, R91). An `Instr` needs no check of its own: its field types carry the
ranges. -/

namespace Sys2Proof

/-- R90: the opcode byte is one of 0 to 41. -/
def opcodeAssigned (b0 : Byte) : Bool := (Opcode.ofByte b0).isSome

/-- R88: the number of bytes is the length of the opcode's format. -/
def lengthMatches (f : Format) (bytes : List Byte) : Bool := bytes.length == f.length

/-- R84: in FRI, FRA and FR the high nibble of byte 1 is zero. -/
def reservedNibbleZero (f : Format) (operands : List Byte) : Bool :=
  match f.hasRegisterByte, operands with
  | false, _ => true
  | true, [] => false
  | true, b :: _ => hiNibble b == 0

/-- The bytes are exactly one instruction's encoding. -/
def wellFormedBytes : List Byte → Bool
  | [] => false
  | b0 :: operands =>
    match Opcode.ofByte b0 with
    | none => false
    | some op => lengthMatches op.format (b0 :: operands) && reservedNibbleZero op.format operands

end Sys2Proof
end

