-- ==== Sys2Proof/Decode.lean ====
section
/-! DEFINITION. The decoder, total on any bytes and rejecting by name (30_encoding.md R82 to R92), and the encoder written from the
same format table. -/

namespace Sys2Proof

/-- Why bytes are not an instruction. -/
inductive DecodeError where
  /-- Bytes are missing: the list is shorter than the opcode's length (R88). -/
  | truncated
  /-- The opcode byte is 42 to 255 (R90). -/
  | illegalOpcode (b : Byte)
  /-- The register byte has a non-zero high nibble (R84). -/
  | reservedRegisterByte (b : Byte)
  deriving DecidableEq, Repr

/-- A 16-bit address from its two bytes, the first being bits 15:8 (R87, 20_memory.md R59). -/
def joinBytes (hi lo : Byte) : Addr := hi ++ lo

/-- Bits 15:8 of an address (R59). -/
def hiByte (a : Addr) : Byte := a.extractLsb' 8 8

/-- Bits 7:0 of an address (R59). -/
def loByte (a : Addr) : Byte := a.extractLsb' 0 8

/-- Format F0: no operand (R82). -/
def decodeF0 (i : Instr) (rest : List Byte) : Except DecodeError (Instr × List Byte) :=
  .ok (i, rest)

/-- Format FI: an immediate byte (R82). -/
def decodeFI (mk : Byte → Instr) : List Byte → Except DecodeError (Instr × List Byte)
  | imm :: rest => .ok (mk imm, rest)
  | [] => .error .truncated

/-- Format FA: a 16-bit address (R82). -/
def decodeFA (mk : Addr → Instr) : List Byte → Except DecodeError (Instr × List Byte)
  | hi :: lo :: rest => .ok (mk (joinBytes hi lo), rest)
  | _ => .error .truncated

/-- Format FRR: two register numbers in one byte, the first in bits 7:4 (R82, R83). -/
def decodeFRR (mk : Reg → Reg → Instr) : List Byte → Except DecodeError (Instr × List Byte)
  | b :: rest => .ok (mk (hiNibble b) (loNibble b), rest)
  | [] => .error .truncated

/-- Format FRI: a register byte and an immediate byte (R82, R84). -/
def decodeFRI (mk : Reg → Byte → Instr) : List Byte → Except DecodeError (Instr × List Byte)
  | b :: imm :: rest =>
    if hiNibble b = 0 then .ok (mk (loNibble b) imm, rest) else .error (.reservedRegisterByte b)
  | _ => .error .truncated

/-- Format FRA: a register byte and a 16-bit address (R82, R84). -/
def decodeFRA (mk : Reg → Addr → Instr) : List Byte → Except DecodeError (Instr × List Byte)
  | b :: hi :: lo :: rest =>
    if hiNibble b = 0 then .ok (mk (loNibble b) (joinBytes hi lo), rest)
    else .error (.reservedRegisterByte b)
  | _ => .error .truncated

/-- Format FR: a register byte (R82, R84, R85). -/
def decodeFR (mk : Reg → Instr) : List Byte → Except DecodeError (Instr × List Byte)
  | b :: rest => if hiNibble b = 0 then .ok (mk (loNibble b), rest) else .error (.reservedRegisterByte b)
  | [] => .error .truncated

/-- The instruction of an opcode, from the bytes after the opcode byte (R89). -/
def decodeOperands (op : Opcode) (rest : List Byte) : Except DecodeError (Instr × List Byte) :=
  match op with
  | .lda => decodeFRA .lda rest
  | .ldi => decodeFRI .ldi rest
  | .sta => decodeFRA .sta rest
  | .mov => decodeFRR .mov rest
  | .add => decodeFRR .add rest
  | .addI => decodeFRI .addI rest
  | .sub => decodeFRR .sub rest
  | .subI => decodeFRI .subI rest
  | .shtL => decodeFRR .shtL rest
  | .shtR => decodeFRR .shtR rest
  | .hlt => decodeF0 .hlt rest
  | .jmp => decodeFA .jmp rest
  | .cmp => decodeFRR .cmp rest
  | .cmpI => decodeFRI .cmpI rest
  | .beq => decodeFA .beq rest
  | .bne => decodeFA .bne rest
  | .ble => decodeFA .ble rest
  | .bge => decodeFA .bge rest
  | .blt => decodeFA .blt rest
  | .bgt => decodeFA .bgt rest
  | .beqR => decodeFI .beqR rest
  | .bneR => decodeFI .bneR rest
  | .bleR => decodeFI .bleR rest
  | .bgeR => decodeFI .bgeR rest
  | .bltR => decodeFI .bltR rest
  | .bgtR => decodeFI .bgtR rest
  | .and => decodeFRR .and rest
  | .or => decodeFRR .or rest
  | .xor => decodeFRR .xor rest
  | .not => decodeFRR .not rest
  | .endProgram => decodeF0 .endProgram rest
  | .input => decodeF0 .input rest
  | .draw => decodeF0 .draw rest
  | .out => decodeF0 .out rest
  | .call => decodeFA .call rest
  | .ret => decodeF0 .ret rest
  | .iniP => decodeFA .iniP rest
  | .setP => decodeFR .setP rest
  | .getP => decodeFR .getP rest
  | .updP => decodeFR .updP rest
  | .upiP => decodeFI .upiP rest
  | .getc => decodeF0 .getc rest

/-- The first instruction of a byte sequence and the bytes after it, or why there is none (R88 to R92). -/
def decode : List Byte → Except DecodeError (Instr × List Byte)
  | [] => .error .truncated
  | b0 :: rest =>
    match Opcode.ofByte b0 with
    | none => .error (.illegalOpcode b0)
    | some op => decodeOperands op rest

/-- The opcode of an instruction (R89). -/
def Instr.opcode : Instr → Opcode
  | .lda _ _ => .lda
  | .ldi _ _ => .ldi
  | .sta _ _ => .sta
  | .mov _ _ => .mov
  | .add _ _ => .add
  | .addI _ _ => .addI
  | .sub _ _ => .sub
  | .subI _ _ => .subI
  | .shtL _ _ => .shtL
  | .shtR _ _ => .shtR
  | .hlt => .hlt
  | .jmp _ => .jmp
  | .cmp _ _ => .cmp
  | .cmpI _ _ => .cmpI
  | .beq _ => .beq
  | .bne _ => .bne
  | .ble _ => .ble
  | .bge _ => .bge
  | .blt _ => .blt
  | .bgt _ => .bgt
  | .beqR _ => .beqR
  | .bneR _ => .bneR
  | .bleR _ => .bleR
  | .bgeR _ => .bgeR
  | .bltR _ => .bltR
  | .bgtR _ => .bgtR
  | .and _ _ => .and
  | .or _ _ => .or
  | .xor _ _ => .xor
  | .not _ _ => .not
  | .endProgram => .endProgram
  | .input => .input
  | .draw => .draw
  | .out => .out
  | .call _ => .call
  | .ret => .ret
  | .iniP _ => .iniP
  | .setP _ => .setP
  | .getP _ => .getP
  | .updP _ => .updP
  | .upiP _ => .upiP
  | .getc => .getc

/-- A register byte: high nibble 0000, the number in bits 3:0 (R83, R84). -/
def registerByte (r : Reg) : Byte := BitVec.ofNat 8 r.val

/-- The byte of two register numbers, the first in bits 7:4 (R83). -/
def registerPairByte (ra rb : Reg) : Byte := BitVec.ofNat 8 (16 * ra.val + rb.val)

/-- The two bytes of an address, most significant first (R87). -/
def addressBytes (a : Addr) : List Byte := [hiByte a, loByte a]

/-- The operand bytes of an instruction (R82). -/
def Instr.operandBytes : Instr → List Byte
  | .lda r a => registerByte r :: addressBytes a
  | .ldi r v => [registerByte r, v]
  | .sta r a => registerByte r :: addressBytes a
  | .mov a b => [registerPairByte a b]
  | .add a b => [registerPairByte a b]
  | .addI r v => [registerByte r, v]
  | .sub a b => [registerPairByte a b]
  | .subI r v => [registerByte r, v]
  | .shtL a b => [registerPairByte a b]
  | .shtR a b => [registerPairByte a b]
  | .hlt => []
  | .jmp a => addressBytes a
  | .cmp a b => [registerPairByte a b]
  | .cmpI r v => [registerByte r, v]
  | .beq a => addressBytes a
  | .bne a => addressBytes a
  | .ble a => addressBytes a
  | .bge a => addressBytes a
  | .blt a => addressBytes a
  | .bgt a => addressBytes a
  | .beqR v => [v]
  | .bneR v => [v]
  | .bleR v => [v]
  | .bgeR v => [v]
  | .bltR v => [v]
  | .bgtR v => [v]
  | .and a b => [registerPairByte a b]
  | .or a b => [registerPairByte a b]
  | .xor a b => [registerPairByte a b]
  | .not a b => [registerPairByte a b]
  | .endProgram => []
  | .input => []
  | .draw => []
  | .out => []
  | .call a => addressBytes a
  | .ret => []
  | .iniP a => addressBytes a
  | .setP r => [registerByte r]
  | .getP r => [registerByte r]
  | .updP r => [registerByte r]
  | .upiP v => [v]
  | .getc => []

/-- The bytes of an instruction, opcode byte first (R80, R82). -/
def encode (i : Instr) : List Byte := i.opcode.byte :: i.operandBytes

/-- The length of an instruction in bytes (R88). -/
def Instr.length (i : Instr) : Nat := i.opcode.format.length

/-- The instruction's encoding passes the checks of WellFormed. -/
def Instr.wellFormed (i : Instr) : Bool := wellFormedBytes (encode i)

/-- The bytes of a word of n bytes, most significant first, as the table numbers an instruction's bits (R99). -/
def bytesOfWord : (n : Nat) → (w : Nat) → List Byte
  | 0, _ => []
  | n + 1, w => BitVec.ofNat 8 (w / 256 ^ n) :: bytesOfWord n w

/-- The instruction of a word numbered as the table numbers it, byte 0 most significant (R99, log entry 14), laid out in
memory order with zero bytes up to the longest instruction. -/
def tableWordBytes (nbits w : Nat) : List Byte :=
  bytesOfWord (nbits / 8) w ++ List.replicate (4 - nbits / 8) 0

/-- The instruction the decoder reads from a table word. -/
def decodeTableWord (nbits w : Nat) : Option Instr :=
  match decode (tableWordBytes nbits w) with
  | .ok (i, _) => some i
  | .error _ => none

end Sys2Proof
end

