-- ==== Sys2Proof/Config.lean ====
section
/-! DEFINITION. What the document leaves to the implementation (00_scope.md R7): the parameters with named choices, held in
State as plain data, and the free values, uninterpreted constants about which nothing can be proved. -/

namespace Sys2Proof

/-- What a peripheral exchange carries: an integer (IN, OUT) or a character (GETC, DRAW) (R12). -/
inductive IoKind where
  | int
  | char
  deriving DecidableEq, Repr

/-- `REL_BRANCH_BASE`: the address a relative branch counts from (R7, R149). -/
inductive RelBranchBase where
  | next
  | self
  deriving DecidableEq, Repr

/-- `STACK_BYTE_ORDER`: which byte of a return address lies at the lower address (R7, R63). -/
inductive StackByteOrder where
  | big
  | little
  deriving DecidableEq, Repr

/-- `ROM_WRITE`: what a write to a ROM address does (R7, R52). -/
inductive RomWritePolicy where
  | fault
  | ignore
  deriving DecidableEq, Repr

/-- `UNMAPPED_ACCESS`: what an access to an address without a device does (R7, R54). -/
inductive UnmappedPolicy where
  | fault
  | draw
  deriving DecidableEq, Repr

/-- `UNINIT_POLICY`: what reading a memory byte that nothing has written does (R7, R53). DESIGN CHOICE (log entry 1): it
governs memory only, since every register holds a value at reset. -/
inductive UninitPolicy where
  | fault
  | draw
  deriving DecidableEq, Repr

/-- The parameters of R7 that have named choices. No step changes them. -/
structure Config where
  relBranchBase  : RelBranchBase
  stackByteOrder : StackByteOrder
  romWrite       : RomWritePolicy
  unmapped       : UnmappedPolicy
  uninit         : UninitPolicy
  deriving DecidableEq, Repr

/-- FREE VALUE `HOST_INPUT`: the host's (status, data) answer to an input request of a kind at the n-th draw, none while it
does not answer (R183, R186, R245, log entry 9). -/
opaque Config.hostInput : IoKind → Nat → Option (Byte × Byte)

/-- FREE VALUE `HOST_WAKE`: whether the host delivers the wake event at the n-th draw (R234, log entry 10). -/
opaque Config.hostWake : Nat → Bool

/-- FREE VALUE: the byte a read of an unmapped address returns under `draw`, fresh at every access
(R54, log entry 7). -/
opaque Config.unmappedByte : Nat → Byte

/-- FREE VALUE: the content a memory byte has before anything writes it, fixed at reset, under `draw`
(R53, log entry 4). -/
opaque Config.initialByte : Addr → Byte

end Sys2Proof
end

