-- ==== Sys2Proof/Machine/Platform.lean ====
section
/-! DEFINITION. What the platform supplies at reset: the default of each parameter (00_scope.md R7) and the value of a register
for which the spec states none (10_state.md R40). -/

namespace Sys2Proof.Machine

/-- The spec's defaults of the parameters (R7, decisions D11, D13, D15, D16, D23). -/
def platformConfig : Config where
  relBranchBase := .next
  stackByteOrder := .big
  romWrite := .fault
  unmapped := .fault
  uninit := .fault

/-- DESIGN CHOICE (log entry 1), unsafe: R0 to R14 hold 0x00 at reset, where R40 leaves them unspecified. -/
def powerOnByte : Byte := 0x00

/-- DESIGN CHOICE (log entry 1), unsafe: Z and C are 0 at reset, where R40 leaves them unspecified; bits 7:2 hold 0 (R26). -/
def powerOnStatus : Byte := 0x00

end Sys2Proof.Machine
end

