-- ==== Sys2Proof/Machine/State.lean ====
section
/-! DEFINITION. The machine's state as plain data (10_state.md R20 to R40), its faults (60_exceptions.md R231), refusals and the
state after reset. -/

namespace Sys2Proof.Machine

/-- The kind of a memory access (20_memory.md R54). -/
inductive AccessKind where
  | read
  | write
  | fetch
  deriving DecidableEq, Repr

/-- The five model faults of 60_exceptions.md R231, each with the information it records. All are safe: the machine stops
where the real one does something the document does not say. -/
inductive Fault where
  /-- Raised by the fetch of any instruction whose opcode byte is 42 to 255 (R90). Safe. -/
  | illegalOpcode (pc : Addr) (b : Byte)
  /-- Raised by LDA, LDI, STA, ADD.I, SUB.I, CMP.I, SET.P, GET.P, UPD.P whose register byte has a non-zero high nibble
  (R84). Safe. -/
  | reservedRegisterByte (pc : Addr) (b : Byte)
  /-- Raised by a fetch, or by LDA, STA, GET.P, SET.P, CALL, RET, at 0xE000 to 0xFFFA under `UNMAPPED_ACCESS = fault`
  (R54). Safe. -/
  | unmappedAccess (addr : Addr) (kind : AccessKind)
  /-- Raised by STA, SET.P, CALL writing 0x0000 to 0xBFFF under `ROM_WRITE = fault` (R52). Safe. -/
  | romWrite (addr : Addr) (v : Byte)
  /-- Raised by a fetch, or by LDA, GET.P, RET, OUT, DRAW, reading a memory byte that nothing has written under
  `UNINIT_POLICY = fault` (R53, R40). Safe. Never raised for a register or SR (log entry 1). -/
  | uninitialisedRead (addr : Addr)
  deriving DecidableEq, Repr

/-- The run state (R36). -/
inductive RunState where
  | running
  | waiting
  | ended
  | faulted (fault : Fault)
  deriving DecidableEq, Repr

/-- Why a step has no next state although nothing went wrong. -/
inductive Refusal where
  /-- Raised by an arm of exec whose instruction has no meaning yet. Safe. No arm is left so. -/
  | notModelled (mnemonic : String)
  /-- Raised by `step` when run = Ended: no agent has a step (R36, R181). Safe. -/
  | ended
  deriving DecidableEq, Repr

/-- Memory: the bytes written so far, by address (R38). See `Memory.wf` in Machine/Ops.lean for the canonical form. -/
abbrev Memory := List Host.Cell

/-- The whole state of the machine (INVENTORY.md, State). -/
structure State where
  /-- R0 (ACC) to R14; R15 (RZ) has no storage (R20 to R23). -/
  regs : Vector Byte 15
  /-- The program counter (R24). -/
  pc : Addr
  /-- The status register: Z is bit 1, C is bit 0 (R26). -/
  sr : Byte
  /-- The stack pointer (R31). -/
  sp : Addr
  /-- The global pointer (R32). -/
  gp : Addr
  /-- The instruction register: the opcode byte last fetched (R34). -/
  ir : Byte
  /-- The memory address register: the address of the latest memory access (R35). -/
  mar : Addr
  /-- The memory data register: the byte of the latest memory access (R35). -/
  mdr : Byte
  /-- The run state (R36). -/
  run : RunState
  /-- The model's own field: the IN (`int`) or the GETC (`char`) the running processor is inside of, which the host has not
  answered yet and PC is still at (R183, R186, log entry 9). -/
  pendingInput : Option IoKind
  /-- The bytes of ROM, RAM and the five I/O mailboxes (R38, R51). -/
  mem : Memory
  /-- What the monitor was given, oldest first (R37). -/
  output : List (IoKind × Byte)
  /-- The model's own field: how many free values have been taken (log entry 11). -/
  draws : Nat
  /-- The parameters of R7; no step changes them (log entry 5). -/
  config : Config
  deriving DecidableEq, Repr

/-- The machine right after reset (R40, R260), nothing loaded in ROM (log entry 13). -/
def State.reset : State where
  regs := Vector.replicate 15 powerOnByte
  pc := 0x0000
  sr := powerOnStatus
  sp := 0xE000
  gp := 0xC000
  ir := 0x00
  mar := 0x0000
  mdr := 0x00
  run := .running
  pendingInput := none
  mem := []
  output := []
  draws := 0
  config := platformConfig

end Sys2Proof.Machine
end

