-- ==== Sys2Proof/Machine/Ops.lean ====
section
/-! DEFINITION. The named operations: the memory map and its access primitives (20_memory.md R51 to R60), the stack (R63), raising a
fault (00_scope.md R13, 60_exceptions.md R232) and the exchanges with the host (R12, R182). -/

namespace Sys2Proof.Machine

/-! ### Memory as a canonical list -/

/-- What an address reads as when it is not listed: no value (R40, R53, log entry 4). -/
def Memory.unlisted (_a : Nat) : Option Byte := none

/-- The listed byte of an address. -/
def Memory.find (a : Nat) : Memory → Option Byte
  | [] => none
  | (k, v) :: m => if k = a then some v else Memory.find a m

/-- The content of an address. -/
def Memory.get (m : Memory) (a : Nat) : Option Byte :=
  match Memory.find a m with
  | some v => some v
  | none => Memory.unlisted a

/-- List a byte at its place in address order. -/
def Memory.insert (a : Nat) (v : Byte) : Memory → Memory
  | [] => [(a, v)]
  | (k, w) :: m =>
    if a < k then (a, v) :: (k, w) :: m
    else if a = k then (a, v) :: m
    else (k, w) :: Memory.insert a v m

/-- Unlist an address. -/
def Memory.erase (a : Nat) : Memory → Memory
  | [] => []
  | (k, w) :: m => if k = a then Memory.erase a m else (k, w) :: Memory.erase a m

/-- Write a byte, keeping the canonical form: a byte equal to what the unlisted address reads as is not listed. -/
def Memory.set (m : Memory) (a : Nat) (v : Byte) : Memory :=
  if Memory.unlisted a = some v then Memory.erase a m else Memory.insert a v m

/-- The canonical form: addresses strictly rising and inside the 64 KB space (R50), no entry equal to what its unlisted
address reads as. -/
abbrev Memory.wf (m : Memory) : Prop :=
  m.Pairwise (fun c d => c.1 < d.1) ∧ ∀ c ∈ m, c.1 < 65536 ∧ Memory.unlisted c.1 ≠ some c.2

/-! ### The memory map -/

/-- The parts of the address space (R51, R55). -/
inductive Region where
  | rom
  | ram
  | expansion
  | undocumentedIo
  | mailbox
  deriving DecidableEq, Repr

/-- The region of an address: ROM below 0xC000, RAM below 0xE000, the expansion range below 0xFFC0, undocumented I/O below
0xFFFB, then the five mailboxes (R51, R55). -/
def regionOf (a : Addr) : Region :=
  if a.toNat < 0xC000 then .rom
  else if a.toNat < 0xE000 then .ram
  else if a.toNat < 0xFFC0 then .expansion
  else if a.toNat < 0xFFFB then .undocumentedIo
  else .mailbox

/-- The region holds bytes: ROM, RAM and the five mailboxes do (R52, R53, R56), the others do not (R54, R55). -/
def Region.isStorage : Region → Bool
  | .rom => true
  | .ram => true
  | .mailbox => true
  | .expansion => false
  | .undocumentedIo => false

/-- `IO_OUT`, the byte OUT and DRAW hand to the monitor (R55). -/
def ioOut : Addr := 0xFFFF

/-- `IO_INT_DATA` and `IO_CHAR_DATA` (R55). -/
def ioData : IoKind → Addr
  | .int => 0xFFFE
  | .char => 0xFFFC

/-- `IO_INT_STATUS` and `IO_CHAR_STATUS` (R55). -/
def ioStatus : IoKind → Addr
  | .int => 0xFFFD
  | .char => 0xFFFB

/-! ### Access primitives -/

/-- The stored content of one address: the byte last written, or no value. -/
def peek (s : State) (a : Addr) : Option Byte := Memory.get s.mem a.toNat

/-- Store a byte without regard to the region, as the loader of a program does (R263). -/
def poke (a : Addr) (v : Byte) (s : State) : State := { s with mem := Memory.set s.mem a.toNat v }

/-- MAR and MDR take the address and the byte of the access in progress. PRESUMED (R35, K3, log entry 2). -/
def latch (a : Addr) (v : Byte) (s : State) : State := { s with mar := a, mdr := v }

/-- `MemWrite(addr, 1, v)` where there is storage that can be written (R53, R56, R60). -/
def storeByte (a : Addr) (v : Byte) (s : State) : State := latch a v (poke a v s)

/-- A free value has been taken (log entry 11). -/
def countDraw (s : State) : State := { s with draws := s.draws + 1 }

/-- `MemRead(addr, 1)` of a stored byte, or what UNINIT_POLICY says (R52, R53, R58). -/
def readStored (a : Addr) (s : State) : Except Fault (Byte × State) :=
  match peek s a with
  | some v => .ok (v, latch a v s)
  | none =>
    match s.config.uninit with
    | .fault => .error (.uninitialisedRead a)
    | .draw => .ok (Config.initialByte a, latch a (Config.initialByte a) s)

/-- `MemRead(addr, 1)` where there is no device: what UNMAPPED_ACCESS says (R54). -/
def readUnmapped (kind : AccessKind) (a : Addr) (s : State) : Except Fault (Byte × State) :=
  match s.config.unmapped with
  | .fault => .error (.unmappedAccess a kind)
  | .draw => .ok (Config.unmappedByte s.draws, latch a (Config.unmappedByte s.draws) (countDraw s))

/-- `MemRead(addr, 1)` by region (R58). -/
def readByte (kind : AccessKind) (a : Addr) (s : State) : Except Fault (Byte × State) :=
  match regionOf a with
  | .rom => readStored a s
  | .ram => readStored a s
  | .mailbox => readStored a s
  | .expansion => readUnmapped kind a s
  | .undocumentedIo => readUnmapped kind a s

/-- `MemWrite(addr, 1, v)` to ROM: what ROM_WRITE says (R52). -/
def writeRom (a : Addr) (v : Byte) (s : State) : Except Fault State :=
  match s.config.romWrite with
  | .fault => .error (.romWrite a v)
  | .ignore => .ok (latch a v s)

/-- `MemWrite(addr, 1, v)` where there is no device: what UNMAPPED_ACCESS says (R54). -/
def writeUnmapped (a : Addr) (v : Byte) (s : State) : Except Fault State :=
  match s.config.unmapped with
  | .fault => .error (.unmappedAccess a .write)
  | .draw => .ok (latch a v s)

/-- `MemWrite(addr, 1, v)` by region (R60). -/
def writeByte (a : Addr) (v : Byte) (s : State) : Except Fault State :=
  match regionOf a with
  | .rom => writeRom a v s
  | .ram => .ok (storeByte a v s)
  | .mailbox => .ok (storeByte a v s)
  | .expansion => writeUnmapped a v s
  | .undocumentedIo => writeUnmapped a v s

/-! ### The stack -/

/-- `Push8(b)`: SP goes down by one, then the byte is stored there (R63). -/
def push8 (b : Byte) (s : State) : Except Fault State :=
  writeByte (s.sp - 1) b { s with sp := s.sp - 1 }

/-- `Pop8()`: the byte at SP, then SP goes up by one (R63). -/
def pop8 (s : State) : Except Fault (Byte × State) := do
  let (b, t) ← readByte .read s.sp s
  .ok (b, { t with sp := t.sp + 1 })

/-- The byte of a 16-bit value that is pushed first, so lies at the higher address (R63, STACK_BYTE_ORDER). -/
def pushedFirst (order : StackByteOrder) (v : Addr) : Byte :=
  match order with
  | .big => loByte v
  | .little => hiByte v

/-- The byte of a 16-bit value that is pushed second, so lies at the lower address (R63, STACK_BYTE_ORDER). -/
def pushedSecond (order : StackByteOrder) (v : Addr) : Byte :=
  match order with
  | .big => hiByte v
  | .little => loByte v

/-- The 16-bit value of the byte at the lower address and the byte at the higher one (R63, STACK_BYTE_ORDER). -/
def joinPopped (order : StackByteOrder) (lower higher : Byte) : Addr :=
  match order with
  | .big => joinBytes lower higher
  | .little => joinBytes higher lower

/-- `Push16(v)` (R63). -/
def push16 (v : Addr) (s : State) : Except Fault State := do
  let t ← push8 (pushedFirst s.config.stackByteOrder v) s
  push8 (pushedSecond s.config.stackByteOrder v) t

/-- `Pop16()` (R63). -/
def pop16 (s : State) : Except Fault (Addr × State) := do
  let (lower, t) ← pop8 s
  let (higher, u) ← pop8 t
  .ok (joinPopped s.config.stackByteOrder lower higher, u)

/-! ### Raising a fault -/

/-- The outcome of an instruction: its next state, or the fault it raises. `raise` abandons the step, so a fault carries no
part of the instruction's writes (R13, R92, R232, log entry 12). -/
def outcomeOf : Except Fault State → Host.Outcome State Fault Refusal
  | .ok s => .next s
  | .error f => .fault f

/-- The state a fault leaves: as before the instruction, only run changed (R232). There is no return from it but reset
(R236, R237). DESIGN CHOICE (log entry 11): the count of free values is as before too, so the ones that the abandoned step took
are taken again after a reset. -/
def faultedState (f : Fault) (s : State) : State := { s with run := .faulted f }

/-! ### The host -/

/-- The two stores of IN and GETC, both to mailboxes: the host's status byte, then its data byte (R56, R183, R186). -/
def depositInput (kind : IoKind) (answer : Byte × Byte) (s : State) : State :=
  storeByte (ioData kind) answer.2 (storeByte (ioStatus kind) answer.1 s)

/-- `HostOut(kind, b)`: the pair is appended to the output log (R12, R37). -/
def hostOut (kind : IoKind) (b : Byte) (s : State) : State := { s with output := s.output ++ [(kind, b)] }

/-- The wake event: it ends a wait and has no other effect, and no effect at all when the machine is not waiting
(R234, R235). -/
def deliverWake (s : State) : State :=
  match s.run with
  | .waiting => { s with run := .running }
  | .running => s
  | .ended => s
  | .faulted _ => s

/-- The host's turn while the machine waits: it delivers the wake or lets the wait go on (HOST_WAKE, R234, log entry 10). -/
def hostTurn (s : State) : State :=
  if Config.hostWake s.draws then deliverWake (countDraw s) else countDraw s

end Sys2Proof.Machine
end

