-- ==== Sys2Proof/Machine/Operands.lean ====
section
/-! DEFINITION. Operand forms: registers (10_state.md R20 to R23), sign extension (00_scope.md R9), the advance of PC (R25) and the
target of a relative branch (42_jump_compare_branch.md R149). -/

namespace Sys2Proof.Machine

/-- `x[i]`: a register's value; R15 reads as zero (R10, R23). -/
def readReg (r : Reg) (s : State) : Byte :=
  if h : r.val < 15 then s.regs[r.val] else 0x00

/-- `x[i] <- v`: write a register; a write to R15 is discarded (R10, R23). -/
def writeReg (r : Reg) (v : Byte) (s : State) : State :=
  { s with regs := if h : r.val < 15 then s.regs.set r.val v else s.regs }

/-- `sext_16(v)`: the byte read as a two's-complement number, in 16 bits (R9). -/
def sext16 (v : Byte) : Addr := v.signExtend 16

/-- `next_pc`: the address after an instruction of the format that starts at PC (R10, R25). -/
def nextPc (f : Format) (s : State) : Addr := s.pc + BitVec.ofNat 16 f.length

/-- `pc <- next_pc` (R10, R92). -/
def advance (f : Format) (s : State) : State := { s with pc := nextPc f s }

/-- The base of a relative branch under REL_BRANCH_BASE (R149). -/
def relativeBase (s : State) : Addr :=
  match s.config.relBranchBase with
  | .next => nextPc .fi s
  | .self => s.pc

/-- The target of a relative branch (R149). -/
def relativeTarget (off : Byte) (s : State) : Addr := relativeBase s + sext16 off

end Sys2Proof.Machine
end

