-- ==== Sys2Proof/Machine/Flags.lean ====
section
/-! DEFINITION. The flags Z and C (10_state.md R26 to R29), the arithmetic, shift and logic results that write them
(41_arithmetic_shift.md R120, R121, R126, R127) and the branch conditions that read them (42_jump_compare_branch.md R148). -/

namespace Sys2Proof.Machine

/-- `SR.Z`, bit 1 of SR (R26). -/
def flagZ (s : State) : Bool := s.sr.getLsbD 1

/-- `SR.C`, bit 0 of SR (R26). -/
def flagC (s : State) : Bool := s.sr.getLsbD 0

/-- SR with Z replaced, every other bit kept (R27). -/
def srWithZ (z : Bool) (sr : Byte) : Byte := (sr &&& 0xFD) ||| (if z then 0x02 else 0x00)

/-- SR with C replaced, every other bit kept (R28). -/
def srWithC (c : Bool) (sr : Byte) : Byte := (sr &&& 0xFE) ||| (if c then 0x01 else 0x00)

/-- `SR.Z <- z` (R27). -/
def writeZ (z : Bool) (s : State) : State := { s with sr := srWithZ z s.sr }

/-- `SR.C <- c` (R28). -/
def writeC (c : Bool) (s : State) : State := { s with sr := srWithC c s.sr }

/-- A result with its two flags (R120, R121). -/
structure AluResult where
  value : Byte
  zero  : Bool
  carry : Bool
  deriving DecidableEq, Repr

/-- `Add8(a, b)`: C is the carry out of bit 7 of the exact sum (R120). -/
def add8 (a b : Byte) : AluResult where
  value := BitVec.ofNat 8 (a.toNat + b.toNat)
  zero := BitVec.ofNat 8 (a.toNat + b.toNat) == 0
  carry := decide (a.toNat + b.toNat > 255)

/-- `Sub8(a, b)`: C is the borrow, set when a is below b as unsigned numbers (R121). -/
def sub8 (a b : Byte) : AluResult where
  value := a - b
  zero := a - b == 0
  carry := decide (a.toNat < b.toNat)

/-- The logical left shift performed n times; 8 or more empties the byte (R126). -/
def shiftLeft8 (v n : Byte) : Byte :=
  if n.toNat < 8 then v <<< n.toNat else 0x00

/-- The logical right shift performed n times; 8 or more empties the byte (R127). -/
def shiftRight8 (v n : Byte) : Byte :=
  if n.toNat < 8 then v >>> n.toNat else 0x00

/-- An arithmetic result into a register, Z and C written from it, PC advanced (R122 to R125). -/
def writeArithmetic (f : Format) (rd : Reg) (x : AluResult) (s : State) : State :=
  advance f (writeC x.carry (writeZ x.zero (writeReg rd x.value s)))

/-- A comparison: Z and C written, the difference discarded, PC advanced (R141, R142). -/
def writeComparison (f : Format) (x : AluResult) (s : State) : State :=
  advance f (writeC x.carry (writeZ x.zero s))

/-- A shift or logic result into a register, Z written from it, C kept, PC advanced (R126, R127, R170). -/
def writeLogic (f : Format) (rd : Reg) (v : Byte) (s : State) : State :=
  advance f (writeZ (v == 0) (writeReg rd v s))

/-- The six branch conditions (R148). -/
inductive Cond where
  | eq
  | ne
  | le
  | ge
  | lt
  | gt
  deriving DecidableEq, Repr

/-- When a condition is true of the flags (R148). -/
def condHolds (c : Cond) (z carry : Bool) : Bool :=
  match c with
  | .eq => z
  | .ne => !z
  | .le => carry || z
  | .ge => !carry
  | .lt => carry
  | .gt => !carry && !z

/-- A conditional transfer of an instruction of the format: to the target if the condition holds, else to the next
instruction (R143 to R156). -/
def branchIf (c : Cond) (f : Format) (target : Addr) (s : State) : State :=
  { s with pc := if condHolds c (flagZ s) (flagC s) then target else nextPc f s }

end Sys2Proof.Machine
end

