-- ==== Sys2Proof/Machine/Arithmetic.lean ====
section
/-! DEFINITION. ADD, ADD.I, SUB, SUB.I, SHT.L, SHT.R (41_arithmetic_shift.md R122 to R127). Both operands are read before the
write. -/

namespace Sys2Proof.Machine

/-- ADD (R122). -/
def execAdd (rd rs : Reg) (s : State) : Host.Outcome State Fault Refusal :=
  .next (writeArithmetic .frr rd (add8 (readReg rd s) (readReg rs s)) s)

/-- ADD.I (R123). -/
def execAddI (rd : Reg) (imm : Byte) (s : State) : Host.Outcome State Fault Refusal :=
  .next (writeArithmetic .fri rd (add8 (readReg rd s) imm) s)

/-- SUB (R124). -/
def execSub (rd rs : Reg) (s : State) : Host.Outcome State Fault Refusal :=
  .next (writeArithmetic .frr rd (sub8 (readReg rd s) (readReg rs s)) s)

/-- SUB.I (R125). -/
def execSubI (rd : Reg) (imm : Byte) (s : State) : Host.Outcome State Fault Refusal :=
  .next (writeArithmetic .fri rd (sub8 (readReg rd s) imm) s)

/-- SHT.L (R126): the count is the whole byte of the second register. -/
def execShtL (rd rs : Reg) (s : State) : Host.Outcome State Fault Refusal :=
  .next (writeLogic .frr rd (shiftLeft8 (readReg rd s) (readReg rs s)) s)

/-- SHT.R (R127): the count is the whole byte of the second register. -/
def execShtR (rd rs : Reg) (s : State) : Host.Outcome State Fault Refusal :=
  .next (writeLogic .frr rd (shiftRight8 (readReg rd s) (readReg rs s)) s)

end Sys2Proof.Machine
end

