-- ==== Sys2Proof/Machine/Branch.lean ====
section
/-! DEFINITION. JMP, CMP, CMP.I and the twelve conditional branches (42_jump_compare_branch.md R140 to R156). -/

namespace Sys2Proof.Machine

/-- JMP (R140): `pc <- addr`. -/
def execJmp (addr : Addr) (s : State) : Host.Outcome State Fault Refusal :=
  .next { s with pc := addr }

/-- CMP (R141). -/
def execCmp (ra rb : Reg) (s : State) : Host.Outcome State Fault Refusal :=
  .next (writeComparison .frr (sub8 (readReg ra s) (readReg rb s)) s)

/-- CMP.I (R142). -/
def execCmpI (ra : Reg) (imm : Byte) (s : State) : Host.Outcome State Fault Refusal :=
  .next (writeComparison .fri (sub8 (readReg ra s) imm) s)

/-- BEQ (R143): condition EQ of R148, absolute target. -/
def execBeq (addr : Addr) (s : State) : Host.Outcome State Fault Refusal :=
  .next (branchIf .eq .fa addr s)

/-- BNE (R144): condition NE of R148, absolute target. -/
def execBne (addr : Addr) (s : State) : Host.Outcome State Fault Refusal :=
  .next (branchIf .ne .fa addr s)

/-- BLE (R145): condition LE of R148, absolute target. -/
def execBle (addr : Addr) (s : State) : Host.Outcome State Fault Refusal :=
  .next (branchIf .le .fa addr s)

/-- BGE (R146): condition GE of R148, absolute target. -/
def execBge (addr : Addr) (s : State) : Host.Outcome State Fault Refusal :=
  .next (branchIf .ge .fa addr s)

/-- BLT (R147): condition LT of R148, absolute target. -/
def execBlt (addr : Addr) (s : State) : Host.Outcome State Fault Refusal :=
  .next (branchIf .lt .fa addr s)

/-- BGT (R150): condition GT of R148, absolute target. -/
def execBgt (addr : Addr) (s : State) : Host.Outcome State Fault Refusal :=
  .next (branchIf .gt .fa addr s)

/-- BEQ.R (R151): condition EQ of R148, target of R149. -/
def execBeqR (off : Byte) (s : State) : Host.Outcome State Fault Refusal :=
  .next (branchIf .eq .fi (relativeTarget off s) s)

/-- BNE.R (R152): condition NE of R148, target of R149. -/
def execBneR (off : Byte) (s : State) : Host.Outcome State Fault Refusal :=
  .next (branchIf .ne .fi (relativeTarget off s) s)

/-- BLE.R (R153): condition LE of R148, target of R149. -/
def execBleR (off : Byte) (s : State) : Host.Outcome State Fault Refusal :=
  .next (branchIf .le .fi (relativeTarget off s) s)

/-- BGE.R (R154): condition GE of R148, target of R149. -/
def execBgeR (off : Byte) (s : State) : Host.Outcome State Fault Refusal :=
  .next (branchIf .ge .fi (relativeTarget off s) s)

/-- BLT.R (R155): condition LT of R148, target of R149. -/
def execBltR (off : Byte) (s : State) : Host.Outcome State Fault Refusal :=
  .next (branchIf .lt .fi (relativeTarget off s) s)

/-- BGT.R (R156): condition GT of R148, target of R149. -/
def execBgtR (off : Byte) (s : State) : Host.Outcome State Fault Refusal :=
  .next (branchIf .gt .fi (relativeTarget off s) s)

end Sys2Proof.Machine
end

