-- ==== Sys2Proof/Machine/DataTransfer.lean ====
section
/-! DEFINITION. LDA, LDI, STA, MOV (40_data_transfer.md R110 to R113). No flag is written. -/

namespace Sys2Proof.Machine

/-- LDA (R110): `x[rd] <- MemRead(addr, 1)`; the read is performed, with its fault, for R15 too. -/
def execLda (rd : Reg) (addr : Addr) (s : State) : Host.Outcome State Fault Refusal :=
  outcomeOf do
    let (v, t) ← readByte .read addr s
    .ok (advance .fra (writeReg rd v t))

/-- LDI (R111): `x[rd] <- imm8`. -/
def execLdi (rd : Reg) (imm : Byte) (s : State) : Host.Outcome State Fault Refusal :=
  .next (advance .fri (writeReg rd imm s))

/-- STA (R112): `MemWrite(addr, 1, x[rs])`. -/
def execSta (rs : Reg) (addr : Addr) (s : State) : Host.Outcome State Fault Refusal :=
  outcomeOf do
    let t ← writeByte addr (readReg rs s) s
    .ok (advance .fra t)

/-- MOV (R113): `x[rd] <- x[rs]`. -/
def execMov (rd rs : Reg) (s : State) : Host.Outcome State Fault Refusal :=
  .next (advance .frr (writeReg rd (readReg rs s) s))

end Sys2Proof.Machine
end

