-- ==== Sys2Proof/Machine/HaltIo.lean ====
section
/-! DEFINITION. HLT, END, IN, GETC, OUT, DRAW (44_halt_end_io.md R180 to R186). No flag and no register is written. -/

namespace Sys2Proof.Machine

/-- HLT (R180): PC advances and the machine waits for the wake event. -/
def execHlt (s : State) : Host.Outcome State Fault Refusal :=
  .next { advance .f0 s with run := .waiting }

/-- END (R181): PC advances and the machine has ended. -/
def execEnd (s : State) : Host.Outcome State Fault Refusal :=
  .next { advance .f0 s with run := .ended }

/-- What an IN or a GETC does with what the host says to it: an answer goes into the mailbox and ends the instruction, and
without an answer the instruction goes on waiting, with no other effect (R183, R186, log entry 9). -/
def takeInput (kind : IoKind) (answer : Option (Byte × Byte)) (s : State) : State :=
  match answer with
  | some pair => { advance .f0 (depositInput kind pair (countDraw s)) with pendingInput := none }
  | none => { countDraw s with pendingInput := some kind }

/-- `HostIn(kind)` asked once, within the step of an IN or a GETC (R12, HOST_INPUT). -/
def inputTurn (kind : IoKind) (s : State) : State := takeInput kind (Config.hostInput kind s.draws) s

/-- IN (R183): the host's status and data bytes into the integer mailbox, once it answers. -/
def execIn (s : State) : Host.Outcome State Fault Refusal :=
  .next (inputTurn .int s)

/-- GETC (R186): the host's status and data bytes into the character mailbox, once it answers. -/
def execGetc (s : State) : Host.Outcome State Fault Refusal :=
  .next (inputTurn .char s)

/-- OUT (R184): the byte at `IO_OUT` is handed to the monitor as an integer. -/
def execOut (s : State) : Host.Outcome State Fault Refusal :=
  outcomeOf do
    let (b, t) ← readByte .read ioOut s
    .ok (advance .f0 (hostOut .int b t))

/-- DRAW (R185): the byte at `IO_OUT` is handed to the monitor as a character. -/
def execDraw (s : State) : Host.Outcome State Fault Refusal :=
  outcomeOf do
    let (b, t) ← readByte .read ioOut s
    .ok (advance .f0 (hostOut .char b t))

end Sys2Proof.Machine
end

