-- ==== Sys2Proof/Machine/Logic.lean ====
section
/-! DEFINITION. AND, OR, XOR, NOT (43_logic.md R170 to R174). Z is written from the result, C is unchanged. -/

namespace Sys2Proof.Machine

/-- AND (R171). -/
def execAnd (rd rs : Reg) (s : State) : Host.Outcome State Fault Refusal :=
  .next (writeLogic .frr rd (readReg rd s &&& readReg rs s) s)

/-- OR (R172). -/
def execOr (rd rs : Reg) (s : State) : Host.Outcome State Fault Refusal :=
  .next (writeLogic .frr rd (readReg rd s ||| readReg rs s) s)

/-- XOR (R173). -/
def execXor (rd rs : Reg) (s : State) : Host.Outcome State Fault Refusal :=
  .next (writeLogic .frr rd (readReg rd s ^^^ readReg rs s) s)

/-- NOT (R174): the complement of the second register into the first, which is no input. -/
def execNot (rd rs : Reg) (s : State) : Host.Outcome State Fault Refusal :=
  .next (writeLogic .frr rd (~~~ readReg rs s) s)

end Sys2Proof.Machine
end

