-- ==== Sys2Proof/Machine/Pointer.lean ====
section
/-! DEFINITION. INI.P, SET.P, GET.P, UPD.P, UPI.P (46_pointer.md R210 to R215). No flag is written. -/

namespace Sys2Proof.Machine

/-- `GP <- (GP + sext_16(d)) mod 2^16` (R215). -/
def movePointer (d : Byte) (s : State) : State := { s with gp := s.gp + sext16 d }

/-- INI.P (R210): `GP <- addr`; no memory is accessed. -/
def execIniP (addr : Addr) (s : State) : Host.Outcome State Fault Refusal :=
  .next (advance .fa { s with gp := addr })

/-- SET.P (R211): `MemWrite(GP, 1, x[rs])`. -/
def execSetP (rs : Reg) (s : State) : Host.Outcome State Fault Refusal :=
  outcomeOf do
    let t ← writeByte s.gp (readReg rs s) s
    .ok (advance .fr t)

/-- GET.P (R212): `x[rd] <- MemRead(GP, 1)`. -/
def execGetP (rd : Reg) (s : State) : Host.Outcome State Fault Refusal :=
  outcomeOf do
    let (v, t) ← readByte .read s.gp s
    .ok (advance .fr (writeReg rd v t))

/-- UPD.P (R213): the pointer moves by the signed content of a register. -/
def execUpdP (rs : Reg) (s : State) : Host.Outcome State Fault Refusal :=
  .next (advance .fr (movePointer (readReg rs s) s))

/-- UPI.P (R214): the pointer moves by a signed immediate. -/
def execUpiP (imm : Byte) (s : State) : Host.Outcome State Fault Refusal :=
  .next (advance .fi (movePointer imm s))

end Sys2Proof.Machine
end

