-- ==== Sys2Proof/Machine/Subroutine.lean ====
section
/-! DEFINITION. CALL and RET (45_subroutine.md R200, R201). Only PC is saved and restored. -/

namespace Sys2Proof.Machine

/-- CALL (R200): `Push16(next_pc); pc <- addr`. -/
def execCall (addr : Addr) (s : State) : Host.Outcome State Fault Refusal :=
  outcomeOf do
    let t ← push16 (nextPc .fa s) s
    .ok { t with pc := addr }

/-- RET (R201): `pc <- Pop16()`. -/
def execRet (s : State) : Host.Outcome State Fault Refusal :=
  outcomeOf do
    let (a, t) ← pop16 s
    .ok { t with pc := a }

end Sys2Proof.Machine
end

