-- ==== Sys2Proof/Machine/Dispatch.lean ====
section
/-! DEFINITION. exec: the meaning of each instruction, step 8 and 9 of 30_encoding.md R92. -/

namespace Sys2Proof.Machine

def exec (i : Instr) (s : State) : Host.Outcome State Fault Refusal :=
  match i with
  | .lda rd addr => Sys2Proof.Machine.execLda rd addr s
  | .ldi rd imm => Sys2Proof.Machine.execLdi rd imm s
  | .sta rs addr => Sys2Proof.Machine.execSta rs addr s
  | .mov rd rs => Sys2Proof.Machine.execMov rd rs s
  | .add rd rs => Sys2Proof.Machine.execAdd rd rs s
  | .addI rd imm => Sys2Proof.Machine.execAddI rd imm s
  | .sub rd rs => Sys2Proof.Machine.execSub rd rs s
  | .subI rd imm => Sys2Proof.Machine.execSubI rd imm s
  | .shtL rd rs => Sys2Proof.Machine.execShtL rd rs s
  | .shtR rd rs => Sys2Proof.Machine.execShtR rd rs s
  | .hlt => Sys2Proof.Machine.execHlt s
  | .jmp addr => Sys2Proof.Machine.execJmp addr s
  | .cmp ra rb => Sys2Proof.Machine.execCmp ra rb s
  | .cmpI ra imm => Sys2Proof.Machine.execCmpI ra imm s
  | .beq addr => Sys2Proof.Machine.execBeq addr s
  | .bne addr => Sys2Proof.Machine.execBne addr s
  | .ble addr => Sys2Proof.Machine.execBle addr s
  | .bge addr => Sys2Proof.Machine.execBge addr s
  | .blt addr => Sys2Proof.Machine.execBlt addr s
  | .bgt addr => Sys2Proof.Machine.execBgt addr s
  | .beqR off => Sys2Proof.Machine.execBeqR off s
  | .bneR off => Sys2Proof.Machine.execBneR off s
  | .bleR off => Sys2Proof.Machine.execBleR off s
  | .bgeR off => Sys2Proof.Machine.execBgeR off s
  | .bltR off => Sys2Proof.Machine.execBltR off s
  | .bgtR off => Sys2Proof.Machine.execBgtR off s
  | .and rd rs => Sys2Proof.Machine.execAnd rd rs s
  | .or rd rs => Sys2Proof.Machine.execOr rd rs s
  | .xor rd rs => Sys2Proof.Machine.execXor rd rs s
  | .not rd rs => Sys2Proof.Machine.execNot rd rs s
  | .endProgram => Sys2Proof.Machine.execEnd s
  | .input => Sys2Proof.Machine.execIn s
  | .draw => Sys2Proof.Machine.execDraw s
  | .out => Sys2Proof.Machine.execOut s
  | .call addr => Sys2Proof.Machine.execCall addr s
  | .ret => Sys2Proof.Machine.execRet s
  | .iniP addr => Sys2Proof.Machine.execIniP addr s
  | .setP rs => Sys2Proof.Machine.execSetP rs s
  | .getP rd => Sys2Proof.Machine.execGetP rd s
  | .updP rs => Sys2Proof.Machine.execUpdP rs s
  | .upiP imm => Sys2Proof.Machine.execUpiP imm s
  | .getc => Sys2Proof.Machine.execGetc s

end Sys2Proof.Machine
end

