-- ==== Sys2Proof/Machine/Fetch.lean ====
section
/-! DEFINITION. Fetching an instruction: steps 1 to 6 of the step function (30_encoding.md R92). -/

namespace Sys2Proof.Machine

/-- Step 4 of R92: n operand bytes from an address on, in rising order. -/
def fetchOperands : (n : Nat) → (a : Addr) → (s : State) → Except Fault (List Byte × State)
  | 0, _, s => .ok ([], s)
  | n + 1, a, s => do
    let (b, t) ← readByte .fetch a s
    let (bs, u) ← fetchOperands n (a + 1) t
    .ok (b :: bs, u)

/-- The fault of bytes that do not decode, at the address of the instruction (R84, R90). The case of missing bytes does not
arise, since as many are fetched as the opcode's length says (log entry 22). -/
def faultOfDecodeError (pc : Addr) (b0 : Byte) : DecodeError → Fault
  | .illegalOpcode b => .illegalOpcode pc b
  | .reservedRegisterByte b => .reservedRegisterByte pc b
  | .truncated => .illegalOpcode pc b0

/-- IR takes the opcode byte. PRESUMED (R34, K2, log entry 2). -/
def latchOpcode (b : Byte) (s : State) : State := { s with ir := b }

/-- The instruction at PC and the state after its fetch, in which PC still is the instruction's address (R92, R233). -/
def fetch (s : State) : Except Fault (Instr × State) := do
  let (b0, t) ← readByte .fetch s.pc s
  match Opcode.ofByte b0 with
  | none => .error (.illegalOpcode s.pc b0)
  | some op =>
    let (bs, u) ← fetchOperands (op.format.length - 1) (s.pc + 1) (latchOpcode b0 t)
    match decode (b0 :: bs) with
    | .ok (i, _) => .ok (i, u)
    | .error e => .error (faultOfDecodeError s.pc b0 e)

end Sys2Proof.Machine
end

