-- ==== Sys2Proof/Machine/Step.lean ====
section
/-! DEFINITION. One step of the machine (30_encoding.md R92, 60_exceptions.md R232, R245). -/

namespace Sys2Proof.Machine

/-- One step: the processor's when run = Running, which goes on with the unanswered IN or GETC when it is inside one, the host's
turn when run = Waiting, none when run is Ended or Faulted (R36, R245, log entries 9, 10 and 21). -/
def step (s : State) : Host.Outcome State Fault Refusal :=
  match s.run with
  | .running =>
    match s.pendingInput with
    | some kind => .next (inputTurn kind s)
    | none =>
      match fetch s with
      | .ok (i, t) => exec i t
      | .error f => .fault f
  | .waiting => .next (hostTurn s)
  | .ended => .refused .ended
  | .faulted f => .fault f

/-- The spec's own transition: a raised fault leaves `Faulted(fault)` and a state without a step stays as it is (R232, R36,
log entry 12). -/
def settle (s : State) : State :=
  match step s with
  | .next t => t
  | .fault f => faultedState f s
  | .refused _ => s

/-- Store bytes at consecutive addresses, wrapping at the top (R80). -/
def pokeBytes : List Byte → Addr → State → State
  | [], _, s => s
  | b :: bs, a, s => pokeBytes bs (a + 1) (poke a b s)

/-- The state with an instruction, given as a word of the opcode table, stored at PC, zero bytes after it, running and
inside no other instruction, so that the next step fetches and runs it (R263, log entries 13 and 14). -/
def State.withFetchWord (s : State) (nbits w : Nat) : State :=
  { pokeBytes (tableWordBytes nbits w) s.pc s with run := .running, pendingInput := none }

end Sys2Proof.Machine
end

