-- ==== Sys2Proof/Machine/Assembler.lean ====
section
/-! DEFINITION. The assembler's operand forms and instruction lines (30_encoding.md R93 to R98). How a label is defined, comments and
directives are in no source (N20), so the addresses of the labels are an argument. Log entry 19. -/

namespace Sys2Proof.Machine

/-- An operand as written (R93, R95, R96, R97). -/
inductive Operand where
  /-- `R<n>`. -/
  | reg (n : Nat)
  /-- `#n`, decimal, possibly negative. -/
  | imm (n : Int)
  /-- A character between apostrophes, by its code. -/
  | char (code : Nat)
  /-- `&n`, a decimal address. -/
  | decAddr (n : Nat)
  /-- `0x..`, a hexadecimal address. -/
  | hexAddr (n : Nat)
  /-- A bare decimal, accepted as an immediate or an offset (R96, 90_conflicts.md C8). -/
  | bare (n : Int)
  /-- A label standing for an address (R97). -/
  | label (name : List Char)
  deriving DecidableEq, Repr

/-- The addresses the labels name. -/
abbrev Labels := List (List Char × Addr)

/-- A register operand: R0 to R15 (R95). -/
def asmReg : Operand → Option Reg
  | .reg n => if h : n < 16 then some ⟨n, h⟩ else none
  | .imm _ => none
  | .char _ => none
  | .decAddr _ => none
  | .hexAddr _ => none
  | .bare _ => none
  | .label _ => none

/-- The byte of a number from -128 to 255, negative numbers in two's complement (R96). -/
def asmNumber (n : Int) : Option Byte :=
  if -128 ≤ n ∧ n ≤ 255 then some (BitVec.ofInt 8 n) else none

/-- An 8-bit operand: an immediate, a bare number or an ASCII character (R96). -/
def asmByte : Operand → Option Byte
  | .imm n => asmNumber n
  | .bare n => asmNumber n
  | .char code => if code < 128 then some (BitVec.ofNat 8 code) else none
  | .reg _ => none
  | .decAddr _ => none
  | .hexAddr _ => none
  | .label _ => none

/-- A 16-bit address from 0 to 65535 (R96). -/
def asmNumberAddr (n : Nat) : Option Addr :=
  if n < 65536 then some (BitVec.ofNat 16 n) else none

/-- An address operand: a direct address or a label (R96, R97). -/
def asmAddr (labels : Labels) : Operand → Option Addr
  | .decAddr n => asmNumberAddr n
  | .hexAddr n => asmNumberAddr n
  | .label name => labels.lookup name
  | .reg _ => none
  | .imm _ => none
  | .char _ => none
  | .bare _ => none

/-- The bytes of one operand of the format that takes a single one. -/
def asmOne {α : Type} (read : Operand → Option α) (bytes : α → List Byte) : List Operand → Option (List Byte)
  | [x] => (read x).map bytes
  | _ => none

/-- The bytes of two operands, destination first (R94). -/
def asmTwo {α β : Type} (readA : Operand → Option α) (readB : Operand → Option β) (bytes : α → β → List Byte) :
    List Operand → Option (List Byte)
  | [x, y] =>
    match readA x, readB y with
    | some a, some b => some (bytes a b)
    | _, _ => none
  | _ => none

/-- The operand bytes of a format (R82, R96). -/
def asmOperands (labels : Labels) (f : Format) (ops : List Operand) : Option (List Byte) :=
  match f with
  | .f0 => if ops = [] then some [] else none
  | .fi => asmOne asmByte (fun v => [v]) ops
  | .fa => asmOne (asmAddr labels) addressBytes ops
  | .frr => asmTwo asmReg asmReg (fun a b => [registerPairByte a b]) ops
  | .fri => asmTwo asmReg asmByte (fun r v => [registerByte r, v]) ops
  | .fra => asmTwo asmReg (asmAddr labels) (fun r a => registerByte r :: addressBytes a) ops
  | .fr => asmOne asmReg (fun r => [registerByte r]) ops

/-- The bytes of an instruction from its opcode and operands. -/
def assemble (labels : Labels) (op : Opcode) (ops : List Operand) : Option (List Byte) :=
  (asmOperands labels op.format ops).map (fun bytes => op.byte :: bytes)

/-! ### Reading a line of text -/

/-- A decimal digit's value. -/
def digitValue (c : Char) : Option Nat :=
  if 48 ≤ c.toNat ∧ c.toNat ≤ 57 then some (c.toNat - 48) else none

/-- A hexadecimal digit's value. -/
def hexDigitValue (c : Char) : Option Nat :=
  if 48 ≤ c.toNat ∧ c.toNat ≤ 57 then some (c.toNat - 48)
  else if 65 ≤ c.toNat ∧ c.toNat ≤ 70 then some (c.toNat - 55)
  else if 97 ≤ c.toNat ∧ c.toNat ≤ 102 then some (c.toNat - 87)
  else none

/-- Digits of a base after the value read so far. -/
def readDigits (base : Nat) (value : Char → Option Nat) : Nat → List Char → Option Nat
  | acc, [] => some acc
  | acc, c :: cs =>
    match value c with
    | some d => readDigits base value (base * acc + d) cs
    | none => none

/-- A non-empty number of a base. -/
def readNat (base : Nat) (value : Char → Option Nat) : List Char → Option Nat
  | [] => none
  | c :: cs => readDigits base value 0 (c :: cs)

/-- A decimal number with an optional minus sign. -/
def readInt : List Char → Option Int
  | '-' :: cs => (readNat 10 digitValue cs).map (fun n => - (n : Int))
  | cs => (readNat 10 digitValue cs).map (fun n => (n : Int))

/-- An ASCII letter or the underscore (log entry 19). -/
def isNameStart (c : Char) : Bool := c.isAlpha || c == '_'

/-- A label's name. DESIGN CHOICE (log entry 19): an ASCII letter or underscore, then letters, digits or underscores, where R97
says only "an identifier such as `SOMA`". -/
def readLabel : List Char → Option Operand
  | [] => none
  | c :: cs =>
    if isNameStart c && cs.all (fun d => isNameStart d || d.isDigit) then some (.label (c :: cs)) else none

/-- The apostrophe around a character literal (R96). -/
def apostrophe : Char := Char.ofNat 39

/-- An operand from its text; `R` and digits is a register, never a label (R93, R95, R96, R97). -/
def readOperand (text : List Char) : Option Operand :=
  match text with
  | [] => none
  | 'R' :: cs =>
    match readNat 10 digitValue cs with
    | some n => some (.reg n)
    | none => readLabel text
  | '#' :: cs => (readInt cs).map Operand.imm
  | '&' :: cs => (readNat 10 digitValue cs).map Operand.decAddr
  | '0' :: 'x' :: cs => (readNat 16 hexDigitValue cs).map Operand.hexAddr
  | c :: cs =>
    match readInt text with
    | some n => some (.bare n)
    | none =>
      if c = apostrophe then
        match cs with
        | [d, e] => if e = apostrophe then some (.char d.toNat) else none
        | _ => none
      else readLabel text

/-- The operands' texts, separated by a comma and a space (R94); the first argument is the text read so far, last
character first. -/
def splitOperands : List Char → List Char → List (List Char)
  | acc, [] => [acc.reverse]
  | acc, ',' :: ' ' :: cs => acc.reverse :: splitOperands [] cs
  | acc, c :: cs => splitOperands (c :: acc) cs

/-- All operands, or none if one does not read. -/
def readOperands : List (List Char) → Option (List Operand)
  | [] => some []
  | t :: ts =>
    match readOperand t, readOperands ts with
    | some x, some xs => some (x :: xs)
    | _, _ => none

/-- The opcode of a mnemonic, letter for letter (R94). -/
def readMnemonic (text : List Char) : Option Opcode :=
  Opcode.all.find? (fun op => op.mnemonic.toList == text)

/-- The bytes of a line: the mnemonic, a space, the operands (R94). -/
def assembleLine (labels : Labels) (line : List Char) : Option (List Byte) :=
  match readMnemonic (line.takeWhile (fun c => c != ' ')) with
  | none => none
  | some op =>
    match line.dropWhile (fun c => c != ' ') with
    | [] => assemble labels op []
    | _ :: text =>
      match readOperands (splitOperands [] text) with
      | none => none
      | some ops => assemble labels op ops

end Sys2Proof.Machine
end

