-- ==== Sys2Proof/Machine/Boot.lean ====
section
/-! DEFINITION. The start and the end of a run: loading ROM (70_reset_and_hazards.md R263), reset with given parameters (R260), the
final states (R267). -/

namespace Sys2Proof.Machine

/-- `ROM_IMAGE`, possibly partial, placed in ROM; cells outside 0x0000 to 0xBFFF are no part of an image (R7, R263). -/
def loadRom (image : List Host.Cell) (s : State) : State :=
  image.foldl (fun t c => if c.1 < 0xC000 then { t with mem := Memory.set t.mem c.1 c.2 } else t) s

/-- The start of a run with chosen parameters and a ROM image (R7, R260, R263). -/
def bootState (config : Config) (image : List Host.Cell) : State :=
  loadRom image { State.reset with config := config }

/-- The state a reset of this machine leaves: the values of R40 with its own ROM and parameters, RAM and the mailboxes
unwritten; only a reset leaves Ended and Faulted (R40, R181, R232, R260). DESIGN CHOICE (log entry 11): the model's count of
free values goes on over a reset, so that the host's answers, its wakes and the unmapped bytes after it are new, but for the
bytes that a step which then faulted had taken. -/
def resetState (s : State) : State :=
  { State.reset with config := s.config, mem := s.mem.filter (fun c => c.1 < 0xC000), draws := s.draws }

/-- A run is final exactly when an END has executed (R267). -/
def isFinal (s : State) : Bool := s.run == .ended

end Sys2Proof.Machine
end

