-- ==== Sys2Proof/Machine/Timing.lean ====
section
/-! DEFINITION. Cycle counts, timing information that no other definition reads (70_reset_and_hazards.md R265, R266). -/

namespace Sys2Proof.Machine

/-- The column of clock cycles of the opcode table (R265). -/
def opcodeCycles : Opcode → Nat
  | .hlt => 1
  | .endProgram => 1
  | .input => 1
  | .draw => 1
  | .out => 1
  | .ret => 1
  | .getc => 1
  | .mov => 2
  | .add => 2
  | .sub => 2
  | .shtL => 2
  | .shtR => 2
  | .cmp => 2
  | .beqR => 2
  | .bneR => 2
  | .bleR => 2
  | .bgeR => 2
  | .bltR => 2
  | .bgtR => 2
  | .and => 2
  | .or => 2
  | .xor => 2
  | .not => 2
  | .setP => 2
  | .getP => 2
  | .updP => 2
  | .upiP => 2
  | .ldi => 3
  | .addI => 3
  | .subI => 3
  | .jmp => 3
  | .cmpI => 3
  | .beq => 3
  | .bne => 3
  | .ble => 3
  | .bge => 3
  | .blt => 3
  | .bgt => 3
  | .call => 3
  | .iniP => 3
  | .lda => 4
  | .sta => 4

/-- The clock cycles of an instruction: one number for each opcode (R265). -/
def instrCycles (i : Instr) : Nat := opcodeCycles i.opcode

/-- The clock cycles of the state an instruction leads to: its own, or none yet while it waits for the host's answer
(R265, log entry 20). -/
def cyclesWhenDone (i : Instr) (t : State) : Nat :=
  match t.pendingInput with
  | some _ => 0
  | none => instrCycles i

/-- The instruction that waits for input of a kind (R183, R186). -/
def inputInstr : IoKind → Instr
  | .int => .input
  | .char => .getc

/-- The clock cycles of the next step: those of the instruction that it ends; waiting for the host is not counted (R265). -/
def stepCycles (s : State) : Nat :=
  match s.run with
  | .running =>
    match s.pendingInput with
    | some kind => cyclesWhenDone (inputInstr kind) (inputTurn kind s)
    | none =>
      match fetch s with
      | .ok (i, t) =>
        match exec i t with
        | .next u => cyclesWhenDone i u
        | .fault _ => 0
        | .refused _ => 0
      | .error _ => 0
  | .waiting => 0
  | .ended => 0
  | .faulted _ => 0

/-- The clock cycles of n steps (R265). -/
def runCycles : (n : Nat) → (s : State) → Nat
  | 0, _ => 0
  | n + 1, s => stepCycles s + runCycles n (settle s)

end Sys2Proof.Machine
end

