-- ==== Sys2Proof/Safety.lean ====
section
/-! DEFINITION. The terms the statements use: what an instruction leaves unchanged, the machine's invariant, and what counts as a
safe run. -/

namespace Sys2Proof.Machine

/-! ### What stays unchanged from one state to another -/

/-- Every register reads as before. -/
def SameRegs (s t : State) : Prop := ∀ r, readReg r t = readReg r s

/-- Every register but one reads as before. -/
def SameRegsBut (rd : Reg) (s t : State) : Prop := ∀ r, r ≠ rd → readReg r t = readReg r s

/-- The whole status register is as before. -/
def SameStatus (s t : State) : Prop := t.sr = s.sr

/-- Bits 7:2 of SR are as before (10_state.md R26). -/
def SameReservedStatus (s t : State) : Prop := t.sr.extractLsb' 2 6 = s.sr.extractLsb' 2 6

/-- SP and GP are as before. -/
def SamePointers (s t : State) : Prop := t.sp = s.sp ∧ t.gp = s.gp

/-- IR, MAR, MDR are as before and no free value was taken. -/
def SameHidden (s t : State) : Prop := t.ir = s.ir ∧ t.mar = s.mar ∧ t.mdr = s.mdr ∧ t.draws = s.draws

/-- The run state, the input waited for, the output log and the parameters are as before. -/
def SameHost (s t : State) : Prop :=
  t.run = s.run ∧ t.pendingInput = s.pendingInput ∧ t.output = s.output ∧ t.config = s.config

/-- Every byte of memory reads as before. -/
def SameMemory (s t : State) : Prop := ∀ a, peek t a = peek s a

/-- Every byte of memory outside a list of addresses reads as before. -/
def SameMemoryBut (stored : List Addr) (s t : State) : Prop := ∀ a, a ∉ stored → peek t a = peek s a

/-- A register holds a value that was written to it: R15 reads zero whatever is written (R23). -/
def Holds (rd : Reg) (v : Byte) (t : State) : Prop := readReg rd t = if rd = 15 then 0x00 else v

/-! ### When an access completes -/

/-- A read of an address gives a byte and takes a number of free values: a stored byte as it stands, an unwritten byte under
`UNINIT_POLICY = draw`, or an unmapped one under `UNMAPPED_ACCESS = draw` (20_memory.md R52 to R56, R58). -/
def ReadsAs (s : State) (a : Addr) (v : Byte) (taken : Nat) : Prop :=
  ((regionOf a).isStorage = true ∧ peek s a = some v ∧ taken = 0) ∨
  ((regionOf a).isStorage = true ∧ peek s a = none ∧ s.config.uninit = .draw ∧ v = Config.initialByte a ∧ taken = 0) ∨
  ((regionOf a).isStorage = false ∧ s.config.unmapped = .draw ∧ v = Config.unmappedByte s.draws ∧ taken = 1)

/-- A read or a fetch of an address raises a fault of `MemRead` (R53, R54, R58). -/
def AccessFaults (kind : AccessKind) (s : State) (a : Addr) (f : Fault) : Prop :=
  ((regionOf a).isStorage = true ∧ peek s a = none ∧ s.config.uninit = .fault ∧ f = .uninitialisedRead a) ∨
  ((regionOf a).isStorage = false ∧ s.config.unmapped = .fault ∧ f = .unmappedAccess a kind)

/-- A data read of an address raises a fault. -/
def ReadFaults (s : State) (a : Addr) (f : Fault) : Prop := AccessFaults .read s a f

/-- A write at an address stores its byte: RAM and the five mailboxes (R53, R56, R60). -/
def Writable (a : Addr) : Prop := regionOf a = .ram ∨ regionOf a = .mailbox

/-- A write at an address is dropped: ROM under `ROM_WRITE = ignore`, no device under `UNMAPPED_ACCESS = draw`
(R52, R54, R60). -/
def WriteDropped (s : State) (a : Addr) : Prop :=
  (regionOf a = .rom ∧ s.config.romWrite = .ignore) ∨ ((regionOf a).isStorage = false ∧ s.config.unmapped = .draw)

/-- A write of a byte at an address raises a fault of `MemWrite` (R52, R54, R60). -/
def WriteFaults (s : State) (a : Addr) (v : Byte) (f : Fault) : Prop :=
  (regionOf a = .rom ∧ s.config.romWrite = .fault ∧ f = .romWrite a v) ∨
  ((regionOf a).isStorage = false ∧ s.config.unmapped = .fault ∧ f = .unmappedAccess a .write)

/-- A write of a byte at an address completes between two states: stored and read back, or dropped; every other byte as
before. -/
def WriteLands (s t : State) (a : Addr) (v : Byte) : Prop :=
  SameMemoryBut [a] s t ∧ (Writable a → peek t a = some v) ∧ (WriteDropped s a → peek t a = peek s a)

/-! ### When an instruction waits -/

/-- The host does not answer the input that an IN or a GETC asks for now (44_halt_end_io.md R183, R186, log entry 9). -/
def inputUnanswered (i : Instr) (s : State) : Bool :=
  (i == .input && (Config.hostInput .int s.draws).isNone) || (i == .getc && (Config.hostInput .char s.draws).isNone)

/-! ### What each instruction may write -/

/-- The register an instruction names as its destination. -/
def destination : Instr → Option Reg
  | .lda rd _ => some rd
  | .ldi rd _ => some rd
  | .sta _ _ => none
  | .mov rd _ => some rd
  | .add rd _ => some rd
  | .addI rd _ => some rd
  | .sub rd _ => some rd
  | .subI rd _ => some rd
  | .shtL rd _ => some rd
  | .shtR rd _ => some rd
  | .hlt => none
  | .jmp _ => none
  | .cmp _ _ => none
  | .cmpI _ _ => none
  | .beq _ => none
  | .bne _ => none
  | .ble _ => none
  | .bge _ => none
  | .blt _ => none
  | .bgt _ => none
  | .beqR _ => none
  | .bneR _ => none
  | .bleR _ => none
  | .bgeR _ => none
  | .bltR _ => none
  | .bgtR _ => none
  | .and rd _ => some rd
  | .or rd _ => some rd
  | .xor rd _ => some rd
  | .not rd _ => some rd
  | .endProgram => none
  | .input => none
  | .draw => none
  | .out => none
  | .call _ => none
  | .ret => none
  | .iniP _ => none
  | .setP _ => none
  | .getP rd => some rd
  | .updP _ => none
  | .upiP _ => none
  | .getc => none

/-- The addresses an instruction stores to, in order (20_memory.md R62). -/
def storedAddresses (i : Instr) (s : State) : List Addr :=
  match i with
  | .sta _ addr => [addr]
  | .setP _ => [s.gp]
  | .call _ => [s.sp - 1, s.sp - 2]
  | .input => [ioStatus .int, ioData .int]
  | .getc => [ioStatus .char, ioData .char]
  | .lda _ _ => []
  | .ldi _ _ => []
  | .mov _ _ => []
  | .add _ _ => []
  | .addI _ _ => []
  | .sub _ _ => []
  | .subI _ _ => []
  | .shtL _ _ => []
  | .shtR _ _ => []
  | .hlt => []
  | .jmp _ => []
  | .cmp _ _ => []
  | .cmpI _ _ => []
  | .beq _ => []
  | .bne _ => []
  | .ble _ => []
  | .bge _ => []
  | .blt _ => []
  | .bgt _ => []
  | .beqR _ => []
  | .bneR _ => []
  | .bleR _ => []
  | .bgeR _ => []
  | .bltR _ => []
  | .bgtR _ => []
  | .and _ _ => []
  | .or _ _ => []
  | .xor _ _ => []
  | .not _ _ => []
  | .endProgram => []
  | .draw => []
  | .out => []
  | .ret => []
  | .iniP _ => []
  | .getP _ => []
  | .updP _ => []
  | .upiP _ => []

/-- The instructions that write Z and C (10_state.md R29, first row). -/
def writesBothFlags (op : Opcode) : Bool :=
  [Opcode.add, .addI, .sub, .subI, .cmp, .cmpI].contains op

/-- The instructions that write Z only (R29, second row). -/
def writesOnlyZ (op : Opcode) : Bool :=
  [Opcode.shtL, .shtR, .and, .or, .xor, .not].contains op

/-- The instructions that set PC to a target (10_state.md R24). -/
def transfersControl (op : Opcode) : Bool :=
  [Opcode.jmp, .call, .ret, .beq, .bne, .ble, .bge, .blt, .bgt, .beqR, .bneR, .bleR, .bgeR, .bltR, .bgtR].contains op

/-! ### The invariant -/

/-- Every listed byte lies in ROM, RAM or a mailbox: the other ranges are not storage (20_memory.md R54, R55). -/
def storageOnly (m : Memory) : Prop := ∀ c ∈ m, (regionOf (BitVec.ofNat 16 c.1)).isStorage = true

/-- Bits 7:2 of SR are 0 (10_state.md R26). -/
def reservedStatusZero (s : State) : Prop := s.sr.extractLsb' 2 6 = 0

/-- Only a running machine is inside an unanswered IN or GETC (10_state.md R36, log entry 9). -/
def waitsForInputRunning (s : State) : Prop := s.pendingInput ≠ none → s.run = .running

/-- The invariant of the machine: canonical memory, in storage addresses only, SR without its unnamed bits, and no wait for
input but in a running machine. -/
structure MachineInv (s : State) : Prop where
  memoryCanonical : Memory.wf s.mem
  memoryStored : storageOnly s.mem
  statusReserved : reservedStatusZero s
  inputRunning : waitsForInputRunning s

/-! ### Safe runs -/

/-- The state after n of the spec's transitions (30_encoding.md R92, 60_exceptions.md R232). -/
def stateAfter : (n : Nat) → (s : State) → State
  | 0, s => s
  | n + 1, s => stateAfter n (settle s)

/-- No fault is reached within n transitions (60_exceptions.md R232). -/
def faultFree (n : Nat) (s : State) : Prop := ∀ k ≤ n, ∀ f, (stateAfter k s).run ≠ .faulted f

/-- No fault names a value the parameters leave to be drawn: the three policies are at their non-default values
(60_exceptions.md R231). -/
def permissive (c : Config) : Prop := c.romWrite = .ignore ∧ c.unmapped = .draw ∧ c.uninit = .draw

end Sys2Proof.Machine
end

