-- ==== Sys2Proof/Certificates/Slice0/Obligations.lean ====
section
/-! DEFINITION. The statements about the machine, from the numbered rules of the spec. -/

open Sys2Proof Sys2Proof.Machine

namespace Sys2Proof.Machine

/-- The frame of an instruction that writes one register and advances PC, whatever it does to SR. -/
def RegisterEffect (rd : Reg) (v : Byte) (len : Nat) (s t : State) : Prop :=
  Holds rd v t ∧ SameRegsBut rd s t ∧ t.pc = s.pc + BitVec.ofNat 16 len ∧ SamePointers s t ∧ SameHost s t ∧
  SameMemory s t

/-- An arithmetic result: Z from the value, C as given, SR's other bits kept. -/
def ArithmeticEffect (rd : Reg) (v : Byte) (c : Bool) (len : Nat) (s t : State) : Prop :=
  RegisterEffect rd v len s t ∧ SameHidden s t ∧ SameReservedStatus s t ∧ flagZ t = decide (v = 0) ∧ flagC t = c

/-- A shift or logic result: Z from the value, C and SR's other bits kept. -/
def LogicEffect (rd : Reg) (v : Byte) (s t : State) : Prop :=
  RegisterEffect rd v 2 s t ∧ SameHidden s t ∧ SameReservedStatus s t ∧ flagZ t = decide (v = 0) ∧ flagC t = flagC s

/-- A comparison of two bytes: only Z, C and PC change. -/
def CompareEffect (a b : Byte) (len : Nat) (s t : State) : Prop :=
  flagZ t = decide (a = b) ∧ flagC t = decide (a.toNat < b.toNat) ∧ SameReservedStatus s t ∧
  t = { s with sr := t.sr, pc := s.pc + BitVec.ofNat 16 len }

/-- A load of a byte from an address, taking a number of free values. -/
def LoadEffect (rd : Reg) (a : Addr) (v : Byte) (taken len : Nat) (s t : State) : Prop :=
  RegisterEffect rd v len s t ∧ SameStatus s t ∧ t.ir = s.ir ∧ t.mar = a ∧ t.mdr = v ∧ t.draws = s.draws + taken

/-- A store of a byte at an address: only that byte of memory, MAR, MDR and PC change. -/
def StoreEffect (a : Addr) (v : Byte) (len : Nat) (s t : State) : Prop :=
  WriteLands s t a v ∧ t = { s with mem := t.mem, mar := a, mdr := v, pc := s.pc + BitVec.ofNat 16 len }

/-- What an IN or a GETC leads to. With an answer of the host: status byte, then data byte in the mailbox, nothing else of
memory changed, PC at the next instruction. Without one: everything as it was and the instruction still waiting. One free value
is taken either way. -/
def InputEffect (kind : IoKind) (status data : Addr) (answer : Option (Byte × Byte)) (s t : State) : Prop :=
  match answer with
  | some (st, v) =>
    peek t status = some st ∧ peek t data = some v ∧ SameMemoryBut [status, data] s t ∧
    t = { s with mem := t.mem, mar := data, mdr := v, draws := s.draws + 1, pc := s.pc + 1, pendingInput := none }
  | none => t = { s with draws := s.draws + 1, pendingInput := some kind }

/-- The byte at 0xFFFF is handed to the monitor and everything else but PC, MAR and MDR stays. -/
def OutputEffect (kind : IoKind) (b : Byte) (s t : State) : Prop :=
  t = { s with output := s.output ++ [(kind, b)], mar := 0xFFFF, mdr := b, pc := s.pc + 1 }

/-- An operand is the register (30_encoding.md R95). -/
def RegOperand (x : Operand) (r : Reg) : Prop := x = .reg r.val

/-- An operand is the byte: a number from -128 to 255, modulo 256, or an ASCII character (R96). -/
def ByteOperand (x : Operand) (v : Byte) : Prop :=
  (∃ n : Int, (x = .imm n ∨ x = .bare n) ∧ -128 ≤ n ∧ n ≤ 255 ∧ (v.toNat : Int) = n % 256) ∨
  ∃ code : Nat, x = .char code ∧ code < 128 ∧ v.toNat = code

/-- An operand is the address: decimal, hexadecimal or a label that names it (R96, R97). -/
def AddrOperand (labels : Labels) (x : Operand) (a : Addr) : Prop :=
  x = .decAddr a.toNat ∨ x = .hexAddr a.toNat ∨ ∃ name, x = .label name ∧ labels.lookup name = some a

/-- The operands are two, each as said. -/
def TwoOperands (ops : List Operand) (first second : Operand → Prop) : Prop := ∃ x y, ops = [x, y] ∧ first x ∧ second y

/-- The operands are one, as said. -/
def OneOperand (ops : List Operand) (only : Operand → Prop) : Prop := ∃ x, ops = [x] ∧ only x

/-- The operands as written are those of the instruction, in assembly order (R89, R94). -/
def OperandsOf (labels : Labels) (i : Instr) (ops : List Operand) : Prop :=
  match i with
  | .lda r a => TwoOperands ops (RegOperand · r) (AddrOperand labels · a)
  | .ldi r v => TwoOperands ops (RegOperand · r) (ByteOperand · v)
  | .sta r a => TwoOperands ops (RegOperand · r) (AddrOperand labels · a)
  | .mov r q => TwoOperands ops (RegOperand · r) (RegOperand · q)
  | .add r q => TwoOperands ops (RegOperand · r) (RegOperand · q)
  | .addI r v => TwoOperands ops (RegOperand · r) (ByteOperand · v)
  | .sub r q => TwoOperands ops (RegOperand · r) (RegOperand · q)
  | .subI r v => TwoOperands ops (RegOperand · r) (ByteOperand · v)
  | .shtL r q => TwoOperands ops (RegOperand · r) (RegOperand · q)
  | .shtR r q => TwoOperands ops (RegOperand · r) (RegOperand · q)
  | .hlt => ops = []
  | .jmp a => OneOperand ops (AddrOperand labels · a)
  | .cmp r q => TwoOperands ops (RegOperand · r) (RegOperand · q)
  | .cmpI r v => TwoOperands ops (RegOperand · r) (ByteOperand · v)
  | .beq a => OneOperand ops (AddrOperand labels · a)
  | .bne a => OneOperand ops (AddrOperand labels · a)
  | .ble a => OneOperand ops (AddrOperand labels · a)
  | .bge a => OneOperand ops (AddrOperand labels · a)
  | .blt a => OneOperand ops (AddrOperand labels · a)
  | .bgt a => OneOperand ops (AddrOperand labels · a)
  | .beqR v => OneOperand ops (ByteOperand · v)
  | .bneR v => OneOperand ops (ByteOperand · v)
  | .bleR v => OneOperand ops (ByteOperand · v)
  | .bgeR v => OneOperand ops (ByteOperand · v)
  | .bltR v => OneOperand ops (ByteOperand · v)
  | .bgtR v => OneOperand ops (ByteOperand · v)
  | .and r q => TwoOperands ops (RegOperand · r) (RegOperand · q)
  | .or r q => TwoOperands ops (RegOperand · r) (RegOperand · q)
  | .xor r q => TwoOperands ops (RegOperand · r) (RegOperand · q)
  | .not r q => TwoOperands ops (RegOperand · r) (RegOperand · q)
  | .endProgram => ops = []
  | .input => ops = []
  | .draw => ops = []
  | .out => ops = []
  | .call a => OneOperand ops (AddrOperand labels · a)
  | .ret => ops = []
  | .iniP a => OneOperand ops (AddrOperand labels · a)
  | .setP r => OneOperand ops (RegOperand · r)
  | .getP r => OneOperand ops (RegOperand · r)
  | .updP r => OneOperand ops (RegOperand · r)
  | .upiP v => OneOperand ops (ByteOperand · v)
  | .getc => ops = []

/-- A branch goes to the target when its condition is true and to the next instruction when not, and changes nothing but
PC. -/
def BranchEffect (i : Instr) (taken : Prop) (target : Addr) (len : Nat) (s : State) : Prop :=
  (taken → exec i s = .next { s with pc := target }) ∧
  (¬ taken → exec i s = .next { s with pc := s.pc + BitVec.ofNat 16 len })

/-- The bytes of the address three bytes on, in the order CALL pushes them: low then high under `STACK_BYTE_ORDER = big`, high
then low under `little` (20_memory.md R63). -/
def returnBytes (s : State) : Byte × Byte :=
  if s.config.stackByteOrder = .big then (loByte (s.pc + 3), hiByte (s.pc + 3))
  else (hiByte (s.pc + 3), loByte (s.pc + 3))

/-- The bytes of an instruction stand in storage at PC, operands at the following addresses, wrapping at the top. -/
def CodeAt (s : State) (bytes : List Byte) : Prop :=
  ∀ k v, bytes[k]? = some v →
    (regionOf (s.pc + BitVec.ofNat 16 k)).isStorage = true ∧ peek s (s.pc + BitVec.ofNat 16 k) = some v

end Sys2Proof.Machine

/-! ### Encoding -/

/-- Decoding the encoding of any instruction, whatever bytes follow, gives the instruction and those bytes
(30_encoding.md R82 to R89).
Rests on the spec's own decisions D1, D2, D3 (92_eei_decisions.md). -/
def Obligations.DecodeOfEncodeIsTheInstruction : Prop :=
  ∀ (i : Instr) (rest : List Byte), decode (encode i ++ rest) = .ok (i, rest)

/-- Bytes the decoder accepts are the encoding of the instruction it gives: no bit is ignored (R82 to R90).
Rests on the spec's own decisions D1, D2, D3, D4, D5 (92_eei_decisions.md). -/
def Obligations.AcceptedBytesAreTheEncoding : Prop :=
  ∀ (bytes rest : List Byte) (i : Instr), decode bytes = .ok (i, rest) → bytes = encode i ++ rest

/-- The decoder takes exactly the byte sequences that the encoding rules allow as one whole instruction (R84, R88, R90).
Rests on the spec's own decisions D1, D2, D3, D4, D5 (92_eei_decisions.md). -/
def Obligations.DecoderTakesWellFormedBytesOnly : Prop :=
  ∀ bytes : List Byte, wellFormedBytes bytes = true ↔ ∃ i, decode bytes = .ok (i, [])

/-- The five binary examples the document prints, and one word of every other family (95_test_vectors.md S1 to S32).
Rests on the spec's own decisions D1, D2, D3, D6 (92_eei_decisions.md). -/
def Obligations.PrintedExamplesDecode : Prop :=
  decode [0b00000000, 0b00000001, 0b00000000, 0b00100000] = .ok (.lda 1 0x20, []) ∧
  decode [0b00000001, 0b00000001, 0b01100100] = .ok (.ldi 1 100, []) ∧
  decode [0b00000010, 0b00000001, 0b00000000, 0b00110000] = .ok (.sta 1 0x30, []) ∧
  decode [0b00000011, 0b00010010] = .ok (.mov 1 2, []) ∧
  decode [0b00000100, 0b00010010] = .ok (.add 1 2, []) ∧
  decode [0b00001011, 0b00000000, 0b00100000] = .ok (.jmp 0x20, []) ∧
  decode [0b00010100, 0b11111011] = .ok (.beqR (-5), []) ∧
  decode [0b00011101, 0b00100011] = .ok (.not 2 3, []) ∧
  decode [0b00011110] = .ok (.endProgram, []) ∧
  decode [0b00100010, 0b00000000, 0b00100010] = .ok (.call 34, []) ∧
  decode [0b00100111, 0b00000011] = .ok (.updP 3, [])

/-- Every instruction's cycle count is the number of its bytes (70_reset_and_hazards.md R266).
Rests on the spec's own decisions D1, D31 (92_eei_decisions.md) and on the model choices of log entry 20. -/
def Obligations.CyclesEqualBytes : Prop :=
  ∀ i : Instr, instrCycles i = (encode i).length

/-- The assembler answers bytes exactly for operands that are those of an instruction of the opcode, each in its range: the
encoding of that instruction, which decodes to it with nothing left over (30_encoding.md R93 to R97).
Rests on the spec's own decisions D6, D28 (92_eei_decisions.md) and on the model choices of log entry 19. -/
def Obligations.AssembledBytesDecode : Prop :=
  ∀ (labels : Labels) (op : Opcode) (ops : List Operand) (bytes : List Byte),
    assemble labels op ops = some bytes ↔
      ∃ i : Instr, i.opcode = op ∧ OperandsOf labels i ops ∧ bytes = encode i ∧ decode bytes = .ok (i, [])

/-! ### The step -/

/-- When the bytes at PC are those of an instruction, a step of the running machine that is not inside an unanswered IN or GETC
is exec of it. The fetch leaves PC at the
instruction and sets IR to the opcode byte, MAR and MDR to the last byte fetched (30_encoding.md R92; IR, MAR and MDR by
log entry 2).
Rests on the spec's own decision D22 (92_eei_decisions.md) and on the model choices of log entries 2, 9. -/
def Obligations.StepRunsTheDecodedInstruction : Prop :=
  ∀ (s : State) (i : Instr) (bytes : List Byte) (last : Byte), s.run = .running → s.pendingInput = none →
    decode bytes = .ok (i, []) → CodeAt s bytes → bytes.getLast? = some last →
    step s = exec i { s with ir := i.opcode.byte, mar := s.pc + BitVec.ofNat 16 (bytes.length - 1), mdr := last }

/-- A fetch that gives an instruction changes only IR, MAR, MDR and the count of free values, and takes at most one free
value for each byte (R92).
Rests on the spec's own decision D22 (92_eei_decisions.md) and on the model choices of log entries 2, 11. -/
def Obligations.FetchChangesOnlyHiddenState : Prop :=
  ∀ (s t : State) (i : Instr), fetch s = .ok (i, t) →
    t = { s with ir := i.opcode.byte, mar := s.pc + BitVec.ofNat 16 (i.length - 1), mdr := t.mdr, draws := t.draws } ∧
    s.draws ≤ t.draws ∧ t.draws ≤ s.draws + i.length

/-- The opcode byte's faults: where nothing has written it or no device holds it the fetch faults under the policy `fault`, and an
unassigned opcode byte faults as soon as it is fetched, with the instruction's address (30_encoding.md R90,
60_exceptions.md R233).
Rests on the spec's own decisions D5, D16, D22, D23 (92_eei_decisions.md) and on the model choices of log entries 4, 7,
9. -/
def Obligations.OpcodeByteFaultsComeFirst : Prop :=
  ∀ s : State, s.run = .running → s.pendingInput = none →
    ((regionOf s.pc).isStorage = true → peek s s.pc = none → s.config.uninit = .fault →
      step s = .fault (.uninitialisedRead s.pc)) ∧
    ((regionOf s.pc).isStorage = false → s.config.unmapped = .fault → step s = .fault (.unmappedAccess s.pc .fetch)) ∧
    (∀ b n, ReadsAs s s.pc b n → 42 ≤ b.toNat → step s = .fault (.illegalOpcode s.pc b))

/-- The faults of the bytes after the opcode byte. Once a legal opcode byte is read, the first operand byte in rising order whose
fetch fails stops the step with its own fault at its own address, whatever the register byte holds. When all bytes are there, a
register byte with a non-zero high nibble faults, with the instruction's address (30_encoding.md R84, R92, 60_exceptions.md
R233).
Rests on the spec's own decisions D4, D16, D22, D23 (92_eei_decisions.md) and on the model choices of log entries 4, 7,
9. -/
def Obligations.ReservedRegisterByteFaults : Prop :=
  (∀ (s : State) (op : Opcode) (taken k : Nat) (f : Fault), s.run = .running → s.pendingInput = none →
    ReadsAs s s.pc op.byte taken → 1 ≤ k → k < op.format.length →
    (∀ j, 1 ≤ j → j < k → ∃ v n, ReadsAs s (s.pc + BitVec.ofNat 16 j) v n) →
    AccessFaults .fetch s (s.pc + BitVec.ofNat 16 k) f → step s = .fault f) ∧
  (∀ (s : State) (op : Opcode) (b1 : Byte) (more : List Byte), s.run = .running → s.pendingInput = none →
    op.format.hasRegisterByte = true → (op.byte :: b1 :: more).length = op.format.length → CodeAt s (op.byte :: b1 :: more) → 16 ≤ b1.toNat →
    step s = .fault (.reservedRegisterByte s.pc b1))

/-- A fault changes nothing but run, and no transition leaves it (R232). A reset, from any state, leaves the values of R40 with the
machine's own ROM and parameters, RAM and the mailboxes unwritten (R181, R232, R260); that the count of free values goes on is
the model's choice.
Rests on the spec's own decisions D22, D23 (92_eei_decisions.md) and on the model choices of log entries 1, 2, 3, 4, 9,
11, 12, 21. -/
def Obligations.FaultChangesOnlyRun : Prop :=
  (∀ (s : State) (f : Fault), step s = .fault f →
    settle s = { s with run := .faulted f } ∧ settle (settle s) = settle s) ∧
  (∀ s : State,
    (resetState s).pc = 0x0000 ∧ (resetState s).sp = 0xE000 ∧ (resetState s).gp = 0xC000 ∧ (resetState s).output = [] ∧
    (resetState s).run = .running ∧ (resetState s).config = s.config ∧
    (∀ a, peek (resetState s) a = if a.toNat < 0xC000 then peek s a else none) ∧
    resetState s = { State.reset with config := s.config, mem := (resetState s).mem, draws := s.draws })

/-- Every instruction has a meaning: exec never refuses (R91). -/
def Obligations.ExecNeverRefuses : Prop :=
  ∀ (i : Instr) (s : State) (r : Refusal), exec i s ≠ .refused r

/-- The faults an instruction's execution can raise, the instructions that raise them and the parameter that governs each
(60_exceptions.md R231).
Rests on the spec's own decisions D15, D16, D22, D23 (92_eei_decisions.md) and on the model choices of log entry 1. -/
def Obligations.ExecFaultsNameTheirCause : Prop :=
  ∀ (i : Instr) (s : State) (f : Fault), exec i s = .fault f →
    (∃ a, f = .unmappedAccess a .read ∧ (regionOf a).isStorage = false ∧ s.config.unmapped = .fault ∧
      i.opcode ∈ [Opcode.lda, .getP, .ret]) ∨
    (∃ a, f = .unmappedAccess a .write ∧ (regionOf a).isStorage = false ∧ s.config.unmapped = .fault ∧
      i.opcode ∈ [Opcode.sta, .setP, .call]) ∨
    (∃ a v, f = .romWrite a v ∧ regionOf a = .rom ∧ s.config.romWrite = .fault ∧
      i.opcode ∈ [Opcode.sta, .setP, .call]) ∨
    (∃ a, f = .uninitialisedRead a ∧ (regionOf a).isStorage = true ∧ peek s a = none ∧ s.config.uninit = .fault ∧
      i.opcode ∈ [Opcode.lda, .getP, .ret, .out, .draw])

/-- With the three policies at their non-default values a running machine raises only the two faults of decoding
(R231).
Rests on the spec's own decision D22 (92_eei_decisions.md). -/
def Obligations.PermissiveMachineRaisesDecodeFaultsOnly : Prop :=
  ∀ (s : State) (f : Fault), permissive s.config → s.run = .running → step s = .fault f →
    (∃ b, f = .illegalOpcode s.pc b ∧ 42 ≤ b.toNat) ∨ (∃ b, f = .reservedRegisterByte s.pc b ∧ 16 ≤ b.toNat)

/-! ### The host and the run state -/

/-- While the machine waits a step is the host's: with the wake it runs again, without it the wait goes on; nothing else
changes but the count of free values. A wake outside a wait has no effect (60_exceptions.md R234, R235; that the host
chooses afresh at every step is log entry 10).
Rests on the spec's own decisions D20, D32 (92_eei_decisions.md) and on the model choices of log entries 10, 11, 18. -/
def Obligations.WakeOnlyResumesRunning : Prop :=
  (∀ s : State, s.run = .waiting →
    step s = .next { s with run := if Config.hostWake s.draws then .running else .waiting, draws := s.draws + 1 } ∧
    deliverWake s = { s with run := .running }) ∧
  (∀ s : State, s.run ≠ .waiting → deliverWake s = s)

/-- An ended machine takes no step and stays as it is (44_halt_end_io.md R181, 10_state.md R36).
Rests on the spec's own decision D21 (92_eei_decisions.md) and on the model choices of log entry 21. -/
def Obligations.EndedMachineTakesNoStep : Prop :=
  ∀ s : State, s.run = .ended → step s = .refused .ended ∧ settle s = s ∧ isFinal s = true

/-- Only HLT and END change the run state, to Waiting and to Ended (10_state.md R36). An IN or a GETC that the host does not
answer is still in its step, run as before (44_halt_end_io.md R183, R186); an answer ends that step, and no other instruction
begins or ends such a wait.
Rests on the spec's own decisions D18, D20, D21, D22 (92_eei_decisions.md) and on the model choices of log entry 9. -/
def Obligations.RunStateWriters : Prop :=
  ∀ (i : Instr) (s t : State), exec i s = .next t →
    (t.run = if i = .hlt then .waiting else if i = .endProgram then .ended else s.run) ∧
    t.pendingInput = if i = .input then (if inputUnanswered i s then some .int else none)
      else if i = .getc then (if inputUnanswered i s then some .char else none)
      else s.pendingInput

/-- The output log only grows, by at most one pair a step, and only OUT and DRAW add one (10_state.md R37).
Rests on the spec's own decisions D19, D32 (92_eei_decisions.md). -/
def Obligations.OutputLogOnlyGrows : Prop :=
  (∀ (i : Instr) (s t : State), exec i s = .next t → i ≠ .out → i ≠ .draw → t.output = s.output) ∧
  (∀ s t : State, step s = .next t → t.output = s.output ∨ ∃ kind b, t.output = s.output ++ [(kind, b)])

/-! ### Invariants and whole-machine rules -/

/-- The state after reset meets the invariant.
Rests on the spec's own decision D26 (92_eei_decisions.md) and on the model choices of log entries 3, 9. -/
def Obligations.ResetMeetsTheInvariant : Prop := MachineInv State.reset

/-- Every step keeps the invariant: memory stays canonical and inside the storage ranges, SR's unnamed bits stay 0, and only a
running machine waits for input (20_memory.md R54, 10_state.md R26, R36).
Rests on the spec's own decisions D16, D26 (92_eei_decisions.md) and on the model choices of log entries 3, 9. -/
def Obligations.EveryStepKeepsTheInvariant : Prop :=
  ∀ s t : State, MachineInv s → step s = .next t → MachineInv t

/-- No step changes a byte of ROM or a parameter (20_memory.md R52, 00_scope.md R7; that State holds both is log entries 5
and 13).
Rests on the spec's own decision D15 (92_eei_decisions.md) and on the model choices of log entries 5, 13. -/
def Obligations.RomAndParametersNeverChange : Prop :=
  ∀ s t : State, step s = .next t → t.config = s.config ∧ ∀ a, regionOf a = .rom → peek t a = peek s a

/-- Which instructions write which flags; SR's unnamed bits are never written (10_state.md R29, R26).
Rests on the spec's own decisions D8, D26 (92_eei_decisions.md) and on the model choices of log entry 3. -/
def Obligations.FlagWriters : Prop :=
  ∀ (i : Instr) (s t : State), exec i s = .next t →
    SameReservedStatus s t ∧
    (writesBothFlags i.opcode = false → flagC t = flagC s) ∧
    (writesBothFlags i.opcode = false → writesOnlyZ i.opcode = false → SameStatus s t)

/-- Only CALL and RET move SP, by two bytes, and only INI.P, UPD.P and UPI.P write GP (10_state.md R31, R32).
Rests on the spec's own decision D12 (92_eei_decisions.md). -/
def Obligations.PointerRegisterWriters : Prop :=
  ∀ (i : Instr) (s t : State), exec i s = .next t →
    (t.sp = if i.opcode = .call then s.sp - 2 else if i.opcode = .ret then s.sp + 2 else s.sp) ∧
    (i.opcode ∉ [Opcode.iniP, .updP, .upiP] → t.gp = s.gp)

/-- An instruction changes no byte of memory outside the addresses it stores to: those of STA, SET.P, CALL, IN and GETC,
and none for any other (20_memory.md R62).
Rests on the spec's own decisions D17, D18 (92_eei_decisions.md). -/
def Obligations.StoresOnlyWhereListed : Prop :=
  ∀ (i : Instr) (s t : State), exec i s = .next t → SameMemoryBut (storedAddresses i s) s t

/-- An instruction writes no register but its destination (10_state.md R21, R22).
Rests on the spec's own decisions D14, D30 (92_eei_decisions.md). -/
def Obligations.OnlyTheDestinationIsWritten : Prop :=
  ∀ (i : Instr) (s t : State), exec i s = .next t → ∀ r, destination i ≠ some r → readReg r t = readReg r s

/-- An instruction that does not transfer control advances PC by its length (10_state.md R25) once it is done: PC stays at an
IN or a GETC that the host does not answer (44_halt_end_io.md R183, R186).
Rests on the spec's own decisions D12, D18, D21 (92_eei_decisions.md) and on the model choices of log entry 9. -/
def Obligations.PcAdvancesByTheLength : Prop :=
  ∀ (i : Instr) (s t : State), exec i s = .next t → transfersControl i.opcode = false →
    t.pc = if inputUnanswered i s then s.pc else s.pc + BitVec.ofNat 16 i.length

/-- R15 reads as zero in every state, and a write to it changes nothing (10_state.md R23).
Rests on the spec's own decision D14 (92_eei_decisions.md). -/
def Obligations.ZeroRegisterIsFixed : Prop :=
  ∀ (s : State) (v : Byte), readReg 15 s = 0x00 ∧ writeReg 15 v s = s

/-! ### Reset and loading -/

/-- The values the spec states for reset (10_state.md R40). Every byte of memory is unwritten: RAM and the I/O bytes have no stated
content, and ROM, where R40 has ROM_IMAGE, is not loaded yet, which is the model's choice.
Rests on the spec's own decisions D11, D13, D15, D16, D19, D22, D23 (92_eei_decisions.md) and on the model choices of
log entries 4, 5, 13. -/
def Obligations.ResetValuesOfTheSpec : Prop :=
  State.reset.pc = 0x0000 ∧ State.reset.sp = 0xE000 ∧ State.reset.gp = 0xC000 ∧ readReg 15 State.reset = 0x00 ∧
  State.reset.run = .running ∧ State.reset.output = [] ∧ (∀ a, peek State.reset a = none) ∧
  State.reset.config = { relBranchBase := .next, stackByteOrder := .big, romWrite := .fault, unmapped := .fault, uninit := .fault }

/-- A loaded image is what ROM reads as, the rest of memory is unwritten, and the run starts at address 0
(70_reset_and_hazards.md R260, R263).
Rests on the spec's own decisions D15, D23 (92_eei_decisions.md) and on the model choices of log entry 13. -/
def Obligations.BootedRomReadsAsTheImage : Prop :=
  ∀ (c : Config) (image : Memory), Memory.wf image →
    (bootState c image).pc = 0x0000 ∧ (bootState c image).run = .running ∧ (bootState c image).config = c ∧
    ∀ a, peek (bootState c image) a = if a.toNat < 0xC000 then Memory.get image a.toNat else none

/-! ### Memory -/

/-- The memory map: the bounds of the four ranges of R51, the I/O range in its two parts, the five mailboxes of R55 and the
addresses without a function; the entry point is the first byte of ROM (20_memory.md R51). -/
def Obligations.MemoryMapBounds : Prop :=
  ∀ a : Addr,
    (regionOf a = .rom ↔ a.toNat ≤ 0xBFFF) ∧
    (regionOf a = .ram ↔ 0xC000 ≤ a.toNat ∧ a.toNat ≤ 0xDFFF) ∧
    (regionOf a = .expansion ↔ 0xE000 ≤ a.toNat ∧ a.toNat ≤ 0xFFBF) ∧
    (regionOf a = .undocumentedIo ∨ regionOf a = .mailbox ↔ 0xFFC0 ≤ a.toNat) ∧
    (regionOf a = .undocumentedIo ↔ 0xFFC0 ≤ a.toNat ∧ a.toNat ≤ 0xFFFA) ∧
    (regionOf a = .mailbox ↔ 0xFFFB ≤ a.toNat) ∧
    State.reset.pc = 0x0000 ∧ regionOf State.reset.pc = .rom

/-- A byte written to RAM or a mailbox is what any later access reads there, and every other byte reads as before
(20_memory.md R53, R56).
Rests on the spec's own decisions D17, D23 (92_eei_decisions.md). -/
def Obligations.WrittenByteIsReadBack : Prop :=
  ∀ (s : State) (a : Addr) (v : Byte), Writable a →
    ∃ t, writeByte a v s = .ok t ∧ SameMemoryBut [a] s t ∧
      ∀ kind, ∃ u, readByte kind a t = .ok (v, u) ∧ SameMemory t u

/-- What the parameters say of an access that is not to a stored byte: a write to ROM faults or is dropped (ROM_WRITE), an
access to the expansion range or an undocumented I/O address faults, or reads a fresh free byte and drops a write
(UNMAPPED_ACCESS), a read of a byte that nothing has written faults or gives the arbitrary initial byte of its address
(UNINIT_POLICY) (20_memory.md R52, R53, R54, R55).
Rests on the spec's own decisions D15, D16, D17, D23 (92_eei_decisions.md) and on the model choices of log entries 4, 6,
7, 11. -/
def Obligations.AccessesFollowTheParameters : Prop :=
  ∀ (s : State) (a : Addr) (v : Byte) (kind : AccessKind),
    (a.toNat ≤ 0xBFFF →
      (s.config.romWrite = .fault → writeByte a v s = .error (.romWrite a v)) ∧
      (s.config.romWrite = .ignore → ∃ t, writeByte a v s = .ok t ∧ SameMemory s t)) ∧
    (0xE000 ≤ a.toNat ∧ a.toNat ≤ 0xFFFA →
      (s.config.unmapped = .fault → readByte kind a s = .error (.unmappedAccess a kind) ∧
        writeByte a v s = .error (.unmappedAccess a .write)) ∧
      (s.config.unmapped = .draw →
        (∃ t, readByte kind a s = .ok (Config.unmappedByte s.draws, t) ∧ t.draws = s.draws + 1 ∧ SameMemory s t) ∧
        (∃ t, writeByte a v s = .ok t ∧ SameMemory s t))) ∧
    (a.toNat ≤ 0xDFFF ∨ 0xFFFB ≤ a.toNat → peek s a = none →
      (s.config.uninit = .fault → readByte kind a s = .error (.uninitialisedRead a)) ∧
      (s.config.uninit = .draw →
        ∃ t, readByte kind a s = .ok (Config.initialByte a, t) ∧ SameMemory s t ∧ t.draws = s.draws))

/-- A 16-bit value pushed on a stack in RAM is popped again, SP comes back, and with the big order the high byte lies at the
lower address; with the little order the low byte does (20_memory.md R63).
Rests on the spec's own decisions D12, D13 (92_eei_decisions.md) and on the model choices of log entry 8. -/
def Obligations.PushThenPopReturnsTheValue : Prop :=
  ∀ (s : State) (v : Addr), Writable (s.sp - 1) → Writable (s.sp - 2) →
    ∃ t u, push16 v s = .ok t ∧ t.sp = s.sp - 2 ∧ pop16 t = .ok (v, u) ∧ u.sp = s.sp ∧ SameMemory t u ∧
      (s.config.stackByteOrder = .big → peek t (s.sp - 2) = some (hiByte v) ∧ peek t (s.sp - 1) = some (loByte v)) ∧
      (s.config.stackByteOrder = .little → peek t (s.sp - 2) = some (loByte v) ∧ peek t (s.sp - 1) = some (hiByte v))

/-! ### Arithmetic laws and conditions -/

/-- The addition law (41_arithmetic_shift.md R120).
The spec marks the rule as recording its decision D9 (92_eei_decisions.md). -/
def Obligations.AdditionLaw : Prop :=
  ∀ a b : Byte, (add8 a b).value.toNat = (a.toNat + b.toNat) % 256 ∧ (add8 a b).value = a + b ∧
    ((add8 a b).zero = true ↔ (a.toNat + b.toNat) % 256 = 0) ∧ ((add8 a b).carry = true ↔ 255 < a.toNat + b.toNat)

/-- The subtraction law (41_arithmetic_shift.md R121).
The spec marks the rule as recording its decision D9 (92_eei_decisions.md). -/
def Obligations.SubtractionLaw : Prop :=
  ∀ a b : Byte,
    (sub8 a b).value.toNat = (if b.toNat ≤ a.toNat then a.toNat - b.toNat else a.toNat + 256 - b.toNat) ∧
    ((sub8 a b).zero = true ↔ a = b) ∧ ((sub8 a b).zero = true ↔ (sub8 a b).value = 0) ∧
    ((sub8 a b).carry = true ↔ a.toNat < b.toNat)

/-- A shift by a register's value is the single-bit logical shift performed that many times (41_arithmetic_shift.md R126,
R127).
Rests on the spec's own decision D27 (92_eei_decisions.md). -/
def Obligations.ShiftIsPerformedCountTimes : Prop :=
  ∀ v n : Byte, shiftLeft8 v n = (fun x : Byte => x <<< 1)^[n.toNat] v ∧
    shiftRight8 v n = (fun x : Byte => x >>> 1)^[n.toNat] v

/-- After CMP the six conditions are the unsigned relations of the two registers (42_jump_compare_branch.md R148).
Rests on the spec's own decisions D9, D10 (92_eei_decisions.md) and on the model choices of log entry 1. -/
def Obligations.ConditionsAfterCompareAreUnsignedRelations : Prop :=
  ∀ (ra rb : Reg) (s : State), ∃ t, exec (.cmp ra rb) s = .next t ∧
    (condHolds .eq (flagZ t) (flagC t) = true ↔ readReg ra s = readReg rb s) ∧
    (condHolds .ne (flagZ t) (flagC t) = true ↔ readReg ra s ≠ readReg rb s) ∧
    (condHolds .le (flagZ t) (flagC t) = true ↔ (readReg ra s).toNat ≤ (readReg rb s).toNat) ∧
    (condHolds .ge (flagZ t) (flagC t) = true ↔ (readReg rb s).toNat ≤ (readReg ra s).toNat) ∧
    (condHolds .lt (flagZ t) (flagC t) = true ↔ (readReg ra s).toNat < (readReg rb s).toNat) ∧
    (condHolds .gt (flagZ t) (flagC t) = true ↔ (readReg rb s).toNat < (readReg ra s).toNat)

/-- The target of a relative branch: base plus signed byte offset, modulo 2^16, the base being the next instruction or the
branch itself as REL_BRANCH_BASE says (42_jump_compare_branch.md R149).
The spec marks the rule as recording its decisions D11, D12 (92_eei_decisions.md). -/
def Obligations.RelativeTargetLaw : Prop :=
  ∀ (off : Byte) (s : State),
    (s.config.relBranchBase = .next →
      ((relativeTarget off s).toNat : Int) = ((s.pc.toNat : Int) + 2 + off.toInt) % 65536) ∧
    (s.config.relBranchBase = .self →
      ((relativeTarget off s).toNat : Int) = ((s.pc.toNat : Int) + off.toInt) % 65536)

/-! ### Instructions: results, completion and frames -/

/-- LDA and GET.P load the byte at the address, or at GP, whenever the read completes (40_data_transfer.md R110,
46_pointer.md R212).
Rests on the spec's own decisions D8, D14, D16, D23 (92_eei_decisions.md) and on the model choices of log entries 2, 4,
7, 11. -/
def Obligations.LoadsReadTheirAddress : Prop :=
  (∀ (rd : Reg) (addr : Addr) (s : State) (v : Byte) (n : Nat), ReadsAs s addr v n →
    ∃ t, exec (.lda rd addr) s = .next t ∧ LoadEffect rd addr v n 4 s t) ∧
  (∀ (rd : Reg) (s : State) (v : Byte) (n : Nat), ReadsAs s s.gp v n →
    ∃ t, exec (.getP rd) s = .next t ∧ LoadEffect rd s.gp v n 2 s t)

/-- LDI writes its immediate and MOV copies a register; neither writes a flag (R111, R113).
Rests on the spec's own decisions D8, D14 (92_eei_decisions.md) and on the model choices of log entry 1. -/
def Obligations.MovesWriteTheirValue : Prop :=
  (∀ (rd : Reg) (imm : Byte) (s : State), ∃ t, exec (.ldi rd imm) s = .next t ∧
    RegisterEffect rd imm 3 s t ∧ SameStatus s t ∧ SameHidden s t) ∧
  (∀ (rd rs : Reg) (s : State), ∃ t, exec (.mov rd rs) s = .next t ∧
    RegisterEffect rd (readReg rs s) 2 s t ∧ SameStatus s t ∧ SameHidden s t)

/-- STA and SET.P store the register's byte at the address, or at GP, whenever the write completes (R112, R211).
Rests on the spec's own decisions D8, D15, D16 (92_eei_decisions.md) and on the model choices of log entries 1, 2. -/
def Obligations.StoresWriteTheirAddress : Prop :=
  (∀ (rs : Reg) (addr : Addr) (s : State), Writable addr ∨ WriteDropped s addr →
    ∃ t, exec (.sta rs addr) s = .next t ∧ StoreEffect addr (readReg rs s) 4 s t) ∧
  (∀ (rs : Reg) (s : State), Writable s.gp ∨ WriteDropped s s.gp →
    ∃ t, exec (.setP rs) s = .next t ∧ StoreEffect s.gp (readReg rs s) 2 s t)

/-- LDA, GET.P, OUT and DRAW stop with the fault of their read, for R15 as for any destination; STA and SET.P stop with the
fault of their write, which records the byte (40_data_transfer.md R110, R112, 44_halt_end_io.md R184, R185, 46_pointer.md
R211, R212).
Rests on the spec's own decisions D15, D16, D22, D23 (92_eei_decisions.md) and on the model choices of log entry 1. -/
def Obligations.LoadsAndStoresStopOnAccessFaults : Prop :=
  ∀ (s : State) (r : Reg) (f : Fault),
    (∀ addr, ReadFaults s addr f → exec (.lda r addr) s = .fault f) ∧
    (ReadFaults s s.gp f → exec (.getP r) s = .fault f) ∧
    (ReadFaults s 0xFFFF f → exec .out s = .fault f ∧ exec .draw s = .fault f) ∧
    (∀ addr, WriteFaults s addr (readReg r s) f → exec (.sta r addr) s = .fault f) ∧
    (WriteFaults s s.gp (readReg r s) f → exec (.setP r) s = .fault f)

/-- ADD and ADD.I: the sum modulo 256, Z from it, C the carry out of bit 7 (41_arithmetic_shift.md R122, R123).
Rests on the spec's own decisions D8, D9, D14 (92_eei_decisions.md) and on the model choices of log entry 1. -/
def Obligations.AdditionsWriteSumAndFlags : Prop :=
  (∀ (rd rs : Reg) (s : State), encode (.add rd rs) = [0x04, registerPairByte rd rs] ∧
    ∃ t, exec (.add rd rs) s = .next t ∧ ArithmeticEffect rd (readReg rd s + readReg rs s)
      (decide (255 < (readReg rd s).toNat + (readReg rs s).toNat)) 2 s t) ∧
  (∀ (rd : Reg) (imm : Byte) (s : State), encode (.addI rd imm) = [0x05, registerByte rd, imm] ∧
    ∃ t, exec (.addI rd imm) s = .next t ∧ ArithmeticEffect rd (readReg rd s + imm)
      (decide (255 < (readReg rd s).toNat + imm.toNat)) 3 s t)

/-- SUB and SUB.I: the difference modulo 256, Z from it, C the borrow (41_arithmetic_shift.md R124, R125).
Rests on the spec's own decisions D8, D9, D14 (92_eei_decisions.md) and on the model choices of log entry 1. -/
def Obligations.SubtractionsWriteDifferenceAndFlags : Prop :=
  (∀ (rd rs : Reg) (s : State), encode (.sub rd rs) = [0x06, registerPairByte rd rs] ∧
    ∃ t, exec (.sub rd rs) s = .next t ∧ ArithmeticEffect rd (readReg rd s - readReg rs s)
      (decide ((readReg rd s).toNat < (readReg rs s).toNat)) 2 s t) ∧
  (∀ (rd : Reg) (imm : Byte) (s : State), encode (.subI rd imm) = [0x07, registerByte rd, imm] ∧
    ∃ t, exec (.subI rd imm) s = .next t ∧ ArithmeticEffect rd (readReg rd s - imm)
      (decide ((readReg rd s).toNat < imm.toNat)) 3 s t)

/-- SHT.L and SHT.R shift by the whole byte of the count register, 8 or more giving zero; Z from the result, C kept
(41_arithmetic_shift.md R126, R127).
Rests on the spec's own decisions D8, D14, D27 (92_eei_decisions.md) and on the model choices of log entry 1. -/
def Obligations.ShiftsWriteResultAndZ : Prop :=
  ∀ (rd rs : Reg) (s : State),
    (encode (.shtL rd rs) = [0x08, registerPairByte rd rs] ∧ ∃ t, exec (.shtL rd rs) s = .next t ∧
      LogicEffect rd (if (readReg rs s).toNat < 8
        then BitVec.ofNat 8 ((readReg rd s).toNat * 2 ^ (readReg rs s).toNat) else 0x00) s t) ∧
    (encode (.shtR rd rs) = [0x09, registerPairByte rd rs] ∧ ∃ t, exec (.shtR rd rs) s = .next t ∧
      LogicEffect rd (if (readReg rs s).toNat < 8
        then BitVec.ofNat 8 ((readReg rd s).toNat / 2 ^ (readReg rs s).toNat) else 0x00) s t)

/-- AND, OR and XOR of two registers into the first; Z from the result, C kept (43_logic.md R171, R172, R173).
Rests on the spec's own decisions D3, D8, D14 (92_eei_decisions.md) and on the model choices of log entry 1. -/
def Obligations.LogicWritesResultAndZ : Prop :=
  ∀ (rd rs : Reg) (s : State),
    (encode (.and rd rs) = [0x1A, registerPairByte rd rs] ∧ ∃ t, exec (.and rd rs) s = .next t ∧
      LogicEffect rd (readReg rd s &&& readReg rs s) s t) ∧
    (encode (.or rd rs) = [0x1B, registerPairByte rd rs] ∧ ∃ t, exec (.or rd rs) s = .next t ∧
      LogicEffect rd (readReg rd s ||| readReg rs s) s t) ∧
    (encode (.xor rd rs) = [0x1C, registerPairByte rd rs] ∧ ∃ t, exec (.xor rd rs) s = .next t ∧
      LogicEffect rd (readReg rd s ^^^ readReg rs s) s t)

/-- NOT: 255 minus the second register into the first, whatever the first held; Z from the result, C kept
(43_logic.md R174).
Rests on the spec's own decisions D8, D14 (92_eei_decisions.md) and on the model choices of log entry 1. -/
def Obligations.NotComplementsTheSecondRegister : Prop :=
  ∀ (rd rs : Reg) (s : State), ∃ t, exec (.not rd rs) s = .next t ∧
    LogicEffect rd (BitVec.ofNat 8 (255 - (readReg rs s).toNat)) s t

/-- CMP and CMP.I write Z and C from an unsigned comparison and no register (42_jump_compare_branch.md R141, R142).
Rests on the spec's own decisions D7, D9 (92_eei_decisions.md) and on the model choices of log entry 1. -/
def Obligations.ComparesWriteFlagsOnly : Prop :=
  (∀ (ra rb : Reg) (s : State), ∃ t, exec (.cmp ra rb) s = .next t ∧
    CompareEffect (readReg ra s) (readReg rb s) 2 s t) ∧
  (∀ (ra : Reg) (imm : Byte) (s : State), ∃ t, exec (.cmpI ra imm) s = .next t ∧
    CompareEffect (readReg ra s) imm 3 s t)

/-- JMP sets PC to its address and changes nothing else (42_jump_compare_branch.md R140). -/
def Obligations.JumpGoesToItsAddress : Prop :=
  ∀ (addr : Addr) (s : State), encode (.jmp addr) = [0x0B, hiByte addr, loByte addr] ∧
    exec (.jmp addr) s = .next { s with pc := addr }

/-- The six absolute branches: PC to the address when the condition holds, three bytes on when not, nothing else changed
(42_jump_compare_branch.md R143 to R147, R150).
Rests on the spec's own decisions D10, D12 (92_eei_decisions.md) and on the model choices of log entry 1. -/
def Obligations.AbsoluteBranchesFollowTheirCondition : Prop :=
  ∀ (addr : Addr) (s : State),
    BranchEffect (.beq addr) (flagZ s = true) addr 3 s ∧
    BranchEffect (.bne addr) (flagZ s = false) addr 3 s ∧
    BranchEffect (.ble addr) (flagC s = true ∨ flagZ s = true) addr 3 s ∧
    BranchEffect (.bge addr) (flagC s = false) addr 3 s ∧
    BranchEffect (.blt addr) (flagC s = true) addr 3 s ∧
    BranchEffect (.bgt addr) (flagC s = false ∧ flagZ s = false) addr 3 s

/-- The six relative branches: PC to the target of R149 when the condition holds, two bytes on when not, nothing else
changed (42_jump_compare_branch.md R151 to R156).
Rests on the spec's own decisions D10, D11, D12 (92_eei_decisions.md) and on the model choices of log entries 1, 15. -/
def Obligations.RelativeBranchesFollowTheirCondition : Prop :=
  ∀ (off : Byte) (s : State) (target : Addr),
    target = (if s.config.relBranchBase = .next then s.pc + 2 else s.pc) + off.signExtend 16 →
    BranchEffect (.beqR off) (flagZ s = true) target 2 s ∧
    BranchEffect (.bneR off) (flagZ s = false) target 2 s ∧
    BranchEffect (.bleR off) (flagC s = true ∨ flagZ s = true) target 2 s ∧
    BranchEffect (.bgeR off) (flagC s = false) target 2 s ∧
    BranchEffect (.bltR off) (flagC s = true) target 2 s ∧
    BranchEffect (.bgtR off) (flagC s = false ∧ flagZ s = false) target 2 s

/-- HLT advances PC and waits; END advances PC and ends; nothing else changes (44_halt_end_io.md R180, R181).
Rests on the spec's own decisions D20, D21 (92_eei_decisions.md). -/
def Obligations.HaltWaitsAndEndEnds : Prop :=
  ∀ s : State,
    exec .hlt s = .next { s with pc := s.pc + 1, run := .waiting } ∧
    exec .endProgram s = .next { s with pc := s.pc + 1, run := .ended }

/-- IN and GETC put the host's status and data bytes into the integer and the character mailbox, whatever the host answers, and
wait while it does not answer; the step after such a wait asks again. What the shared operation does is said for every answer,
and for none. Asked n times without an answer the machine still waits, Running, at the same instruction, with nothing else changed, and
is in no final state (44_halt_end_io.md R183, R186, 60_exceptions.md R245, 70_reset_and_hazards.md R267).
Rests on the spec's own decisions D17, D18, D21, D32 (92_eei_decisions.md) and on the model choices of log entries 2, 9,
11. -/
def Obligations.InputFillsItsMailbox : Prop :=
  (∀ s : State,
    (∃ t, exec .input s = .next t ∧ InputEffect .int 0xFFFD 0xFFFE (Config.hostInput .int s.draws) s t) ∧
    (∃ t, exec .getc s = .next t ∧ InputEffect .char 0xFFFB 0xFFFC (Config.hostInput .char s.draws) s t) ∧
    (s.run = .running → s.pendingInput = some .int →
      ∃ t, step s = .next t ∧ InputEffect .int 0xFFFD 0xFFFE (Config.hostInput .int s.draws) s t) ∧
    (s.run = .running → s.pendingInput = some .char →
      ∃ t, step s = .next t ∧ InputEffect .char 0xFFFB 0xFFFC (Config.hostInput .char s.draws) s t)) ∧
  (∀ (s : State) (answer : Option (Byte × Byte)),
    InputEffect .int 0xFFFD 0xFFFE answer s (takeInput .int answer s) ∧
    InputEffect .char 0xFFFB 0xFFFC answer s (takeInput .char answer s)) ∧
  (∀ (s : State) (kind : IoKind) (n : Nat), s.run = .running → s.pendingInput = some kind → isFinal s = false ∧
    ((∃ m, m < n ∧ (Config.hostInput kind (s.draws + m)).isSome = true) ∨
      stateAfter n s = { s with draws := s.draws + n }))

/-- OUT and DRAW hand the byte stored at 0xFFFF to the monitor, as an integer and as a character (44_halt_end_io.md R184,
R185).
Rests on the spec's own decisions D17, D19, D23 (92_eei_decisions.md) and on the model choices of log entries 2, 4. -/
def Obligations.OutputHandsOverTheByte : Prop :=
  ∀ (s : State) (b : Byte), peek s 0xFFFF = some b ∨
      (peek s 0xFFFF = none ∧ s.config.uninit = .draw ∧ b = Config.initialByte 0xFFFF) →
    (∃ t, exec .out s = .next t ∧ OutputEffect .int b s t) ∧
    (∃ t, exec .draw s = .next t ∧ OutputEffect .char b s t)

/-- CALL pushes the address of the next instruction at SP-1 and SP-2 and jumps, whenever both writes complete; only those
two bytes, SP, PC, MAR and MDR change (45_subroutine.md R200).
Rests on the spec's own decisions D12, D13, D15, D16 (92_eei_decisions.md) and on the model choices of log entries 2, 8. -/
def Obligations.CallSavesTheReturnAddress : Prop :=
  ∀ (addr : Addr) (s : State) (first second : Byte),
    (first, second) = returnBytes s →
    Writable (s.sp - 1) ∨ WriteDropped s (s.sp - 1) → Writable (s.sp - 2) ∨ WriteDropped s (s.sp - 2) →
    ∃ t, exec (.call addr) s = .next t ∧
      t = { s with pc := addr, sp := s.sp - 2, mem := t.mem, mar := s.sp - 2, mdr := second } ∧
      SameMemoryBut [s.sp - 1, s.sp - 2] s t ∧
      (Writable (s.sp - 1) → peek t (s.sp - 1) = some first) ∧
      (Writable (s.sp - 2) → peek t (s.sp - 2) = some second) ∧
      (WriteDropped s (s.sp - 1) → peek t (s.sp - 1) = peek s (s.sp - 1)) ∧
      (WriteDropped s (s.sp - 2) → peek t (s.sp - 2) = peek s (s.sp - 2))

/-- CALL stops with the fault of its first write, or of its second after the first; RET with the fault of its first read, or
of its second after the first (45_subroutine.md R200, R201, 20_memory.md R64).
Rests on the spec's own decisions D13, D15, D16, D22, D23 (92_eei_decisions.md) and on the model choices of log entry 8. -/
def Obligations.SubroutinesStopOnStackFaults : Prop :=
  ∀ (s : State) (f : Fault),
    (∀ (addr : Addr) (first second : Byte), (first, second) = returnBytes s →
      (WriteFaults s (s.sp - 1) first f → exec (.call addr) s = .fault f) ∧
      (Writable (s.sp - 1) ∨ WriteDropped s (s.sp - 1) → WriteFaults s (s.sp - 2) second f →
        exec (.call addr) s = .fault f)) ∧
    (ReadFaults s s.sp f → exec .ret s = .fault f) ∧
    (∀ v n, ReadsAs s s.sp v n → ReadFaults s (s.sp + 1) f → exec .ret s = .fault f)

/-- RET takes PC from the two bytes at SP, in the order STACK_BYTE_ORDER says, moves SP up by two and leaves memory
(45_subroutine.md R201).
Rests on the spec's own decisions D12, D13, D16, D23 (92_eei_decisions.md) and on the model choices of log entries 2, 8,
11. -/
def Obligations.ReturnRestoresThePc : Prop :=
  ∀ (s u : State) (lower higher : Byte) (m n : Nat), ReadsAs s s.sp lower m →
    u = { s with draws := s.draws + m } → ReadsAs u (s.sp + 1) higher n →
    exec .ret s = .next { s with
      pc := if s.config.stackByteOrder = .big then joinBytes lower higher else joinBytes higher lower
      sp := s.sp + 2, mar := s.sp + 1, mdr := higher, draws := s.draws + m + n }

/-- A CALL whose stack bytes are in RAM, then RET in the state it leaves, comes back to the instruction after the CALL with
SP as before (45_subroutine.md R200, R201).
Rests on the spec's own decisions D12, D13 (92_eei_decisions.md) and on the model choices of log entry 8. -/
def Obligations.CallThenReturnComesBack : Prop :=
  ∀ (addr : Addr) (s : State), Writable (s.sp - 1) → Writable (s.sp - 2) →
    ∃ t u, exec (.call addr) s = .next t ∧ exec .ret t = .next u ∧ t.pc = addr ∧ u.pc = s.pc + 3 ∧ u.sp = s.sp ∧
      SameRegs s u ∧ SameStatus s u ∧ u.gp = s.gp ∧ SameMemory t u

/-- INI.P sets GP to its address and changes nothing else but PC; before any INI.P, at reset, GP is 0xC000, the start of RAM
(46_pointer.md R210). -/
def Obligations.InitPointerSetsGp : Prop :=
  (∀ (addr : Addr) (s : State), encode (.iniP addr) = [0x24, hiByte addr, loByte addr] ∧
    exec (.iniP addr) s = .next { s with gp := addr, pc := s.pc + 3 }) ∧
  State.reset.gp = 0xC000 ∧ regionOf State.reset.gp = .ram ∧ regionOf (State.reset.gp - 1) = .rom

/-- UPD.P and UPI.P add the signed byte to GP modulo 2^16; nothing else but PC changes (46_pointer.md R213, R214, R215).
Rests on the spec's own decisions D6, D8, D12 (92_eei_decisions.md) and on the model choices of log entry 1. -/
def Obligations.PointerUpdatesMoveGp : Prop :=
  (∀ (rs : Reg) (s : State), ∃ t, exec (.updP rs) s = .next t ∧
    (t.gp.toNat : Int) = ((s.gp.toNat : Int) + (readReg rs s).toInt) % 65536 ∧
    t = { s with gp := t.gp, pc := s.pc + 2 }) ∧
  (∀ (imm : Byte) (s : State), ∃ t, exec (.upiP imm) s = .next t ∧
    (t.gp.toNat : Int) = ((s.gp.toNat : Int) + imm.toInt) % 65536 ∧
    t = { s with gp := t.gp, pc := s.pc + 2 })
end

