-- ==== Sys2Proof/Laws/Memory.lean ====
section
/-! SUPPORT. The laws of memory as a canonical list: a read after a write, and that every operation keeps the canonical form. -/

namespace Sys2Proof.Machine

theorem find_insert_same (m : Memory) (a : Nat) (v : Byte) : Memory.find a (Memory.insert a v m) = some v := by
  induction m with
  | nil => simp [Memory.insert, Memory.find]
  | cons c m ih =>
    obtain ⟨k, w⟩ := c
    simp only [Memory.insert]
    split
    · simp [Memory.find]
    · split
      · simp [Memory.find]
      · rename_i h
        simp [Memory.find, Ne.symm h, ih]

theorem find_insert_other (m : Memory) (a b : Nat) (v : Byte) (hab : b ≠ a) :
    Memory.find b (Memory.insert a v m) = Memory.find b m := by
  induction m with
  | nil => simp [Memory.insert, Memory.find, Ne.symm hab]
  | cons c m ih =>
    obtain ⟨k, w⟩ := c
    simp only [Memory.insert]
    split
    · simp [Memory.find, Ne.symm hab]
    · split
      · rename_i h
        subst h
        simp [Memory.find, Ne.symm hab]
      · simp [Memory.find, ih]

theorem find_erase_same (m : Memory) (a : Nat) : Memory.find a (Memory.erase a m) = none := by
  induction m with
  | nil => rfl
  | cons c m ih =>
    obtain ⟨k, w⟩ := c
    simp only [Memory.erase]
    split
    · exact ih
    · rename_i h
      simp [Memory.find, h, ih]

theorem find_erase_other (m : Memory) (a b : Nat) (hab : b ≠ a) :
    Memory.find b (Memory.erase a m) = Memory.find b m := by
  induction m with
  | nil => rfl
  | cons c m ih =>
    obtain ⟨k, w⟩ := c
    simp only [Memory.erase]
    split
    · rename_i h
      subst h
      simp [Memory.find, Ne.symm hab, ih]
    · simp [Memory.find, ih]

theorem get_set_same (m : Memory) (a : Nat) (v : Byte) : Memory.get (Memory.set m a v) a = some v := by
  unfold Memory.get Memory.set
  split
  · rename_i h
    split at h
    · simp [find_erase_same] at h
    · simpa [find_insert_same] using h.symm
  · rename_i h
    split at h
    · assumption
    · simp [find_insert_same] at h

theorem get_set_other (m : Memory) (a b : Nat) (v : Byte) (hab : b ≠ a) :
    Memory.get (Memory.set m a v) b = Memory.get m b := by
  unfold Memory.get Memory.set
  split_ifs <;> simp [find_erase_other, find_insert_other, hab]

theorem mem_insert {m : Memory} {a : Nat} {v : Byte} {c : Host.Cell} (h : c ∈ Memory.insert a v m) :
    c = (a, v) ∨ c ∈ m := by
  induction m with
  | nil => simpa [Memory.insert] using h
  | cons d m ih =>
    obtain ⟨k, w⟩ := d
    simp only [Memory.insert] at h
    split at h
    · simpa using h
    · split at h
      · simp only [List.mem_cons] at h ⊢
        tauto
      · simp only [List.mem_cons] at h ⊢
        tauto

theorem mem_erase {m : Memory} {a : Nat} {c : Host.Cell} (h : c ∈ Memory.erase a m) : c ∈ m := by
  induction m with
  | nil => exact h
  | cons d m ih =>
    obtain ⟨k, w⟩ := d
    simp only [Memory.erase] at h
    split at h
    · exact List.mem_cons_of_mem _ (ih h)
    · simp only [List.mem_cons] at h ⊢
      tauto

theorem mem_set {m : Memory} {a : Nat} {v : Byte} {c : Host.Cell} (h : c ∈ Memory.set m a v) :
    c = (a, v) ∨ c ∈ m := by
  unfold Memory.set at h
  split at h
  · exact .inr (mem_erase h)
  · exact mem_insert h

theorem insert_rising {m : Memory} (a : Nat) (v : Byte) (h : m.Pairwise (fun c d => c.1 < d.1)) :
    (Memory.insert a v m).Pairwise (fun c d => c.1 < d.1) := by
  induction m with
  | nil => simp [Memory.insert]
  | cons d m ih =>
    obtain ⟨k, w⟩ := d
    rw [List.pairwise_cons] at h
    simp only [Memory.insert]
    split
    · rename_i hak
      refine List.pairwise_cons.2 ⟨fun c hc => ?_, List.pairwise_cons.2 h⟩
      rcases List.mem_cons.1 hc with rfl | hc
      · exact hak
      · exact lt_trans hak (h.1 c hc)
    · split
      · rename_i hak
        subst hak
        exact List.pairwise_cons.2 h
      · refine List.pairwise_cons.2 ⟨fun c hc => ?_, ih h.2⟩
        rcases mem_insert hc with rfl | hc
        · show k < a
          omega
        · exact h.1 c hc

theorem erase_rising {m : Memory} (a : Nat) (h : m.Pairwise (fun c d => c.1 < d.1)) :
    (Memory.erase a m).Pairwise (fun c d => c.1 < d.1) := by
  induction m with
  | nil => exact h
  | cons d m ih =>
    obtain ⟨k, w⟩ := d
    rw [List.pairwise_cons] at h
    simp only [Memory.erase]
    split
    · exact ih h.2
    · exact List.pairwise_cons.2 ⟨fun c hc => h.1 c (mem_erase hc), ih h.2⟩

/-- The empty memory is canonical. -/
theorem wf_nil : Memory.wf [] := by simp [Memory.wf]

/-- A write inside the address space keeps the canonical form. -/
theorem wf_set {m : Memory} (a : Nat) (v : Byte) (ha : a < 65536) (h : Memory.wf m) :
    Memory.wf (Memory.set m a v) := by
  unfold Memory.set
  split
  · exact ⟨erase_rising a h.1, fun c hc => h.2 c (mem_erase hc)⟩
  · refine ⟨insert_rising a v h.1, fun c hc => ?_⟩
    rcases mem_insert hc with rfl | hc
    · exact ⟨ha, by assumption⟩
    · exact h.2 c hc

/-- A store at an address keeps the canonical form. -/
theorem wf_poke {s : State} (a : Addr) (v : Byte) (h : Memory.wf s.mem) : Memory.wf (poke a v s).mem :=
  wf_set _ _ a.isLt h

/-- The memory after reset is canonical. -/
theorem wf_reset : Memory.wf State.reset.mem := wf_nil

@[simp] theorem peek_poke_same (a : Addr) (v : Byte) (s : State) : peek (poke a v s) a = some v :=
  get_set_same _ _ _

theorem peek_poke_other {a b : Addr} (v : Byte) (s : State) (h : b ≠ a) : peek (poke a v s) b = peek s b :=
  get_set_other _ _ _ _ (fun e => h (BitVec.eq_of_toNat_eq e))

@[simp] theorem peek_storeByte_same (a : Addr) (v : Byte) (s : State) : peek (storeByte a v s) a = some v :=
  peek_poke_same _ _ _

theorem peek_storeByte_other {a b : Addr} (v : Byte) (s : State) (h : b ≠ a) : peek (storeByte a v s) b = peek s b :=
  peek_poke_other _ _ h

end Sys2Proof.Machine
end

