-- ==== Sys2Proof/Laws/State.lean ====
section
/-! SUPPORT. One lemma for each field of State under each update, so that no later proof unfolds a record update. -/

namespace Sys2Proof.Machine

@[simp] theorem writeReg_pc (r : Reg) (v : Byte) (s : State) : (writeReg r v s).pc = s.pc := rfl
@[simp] theorem writeReg_sr (r : Reg) (v : Byte) (s : State) : (writeReg r v s).sr = s.sr := rfl
@[simp] theorem writeReg_sp (r : Reg) (v : Byte) (s : State) : (writeReg r v s).sp = s.sp := rfl
@[simp] theorem writeReg_gp (r : Reg) (v : Byte) (s : State) : (writeReg r v s).gp = s.gp := rfl
@[simp] theorem writeReg_ir (r : Reg) (v : Byte) (s : State) : (writeReg r v s).ir = s.ir := rfl
@[simp] theorem writeReg_mar (r : Reg) (v : Byte) (s : State) : (writeReg r v s).mar = s.mar := rfl
@[simp] theorem writeReg_mdr (r : Reg) (v : Byte) (s : State) : (writeReg r v s).mdr = s.mdr := rfl
@[simp] theorem writeReg_run (r : Reg) (v : Byte) (s : State) : (writeReg r v s).run = s.run := rfl
@[simp] theorem writeReg_pendingInput (r : Reg) (v : Byte) (s : State) : (writeReg r v s).pendingInput = s.pendingInput := rfl
@[simp] theorem writeReg_mem (r : Reg) (v : Byte) (s : State) : (writeReg r v s).mem = s.mem := rfl
@[simp] theorem writeReg_output (r : Reg) (v : Byte) (s : State) : (writeReg r v s).output = s.output := rfl
@[simp] theorem writeReg_draws (r : Reg) (v : Byte) (s : State) : (writeReg r v s).draws = s.draws := rfl
@[simp] theorem writeReg_config (r : Reg) (v : Byte) (s : State) : (writeReg r v s).config = s.config := rfl

@[simp] theorem advance_regs (f : Format) (s : State) : (advance f s).regs = s.regs := rfl
@[simp] theorem advance_pc (f : Format) (s : State) : (advance f s).pc = nextPc f s := rfl
@[simp] theorem advance_sr (f : Format) (s : State) : (advance f s).sr = s.sr := rfl
@[simp] theorem advance_sp (f : Format) (s : State) : (advance f s).sp = s.sp := rfl
@[simp] theorem advance_gp (f : Format) (s : State) : (advance f s).gp = s.gp := rfl
@[simp] theorem advance_ir (f : Format) (s : State) : (advance f s).ir = s.ir := rfl
@[simp] theorem advance_mar (f : Format) (s : State) : (advance f s).mar = s.mar := rfl
@[simp] theorem advance_mdr (f : Format) (s : State) : (advance f s).mdr = s.mdr := rfl
@[simp] theorem advance_run (f : Format) (s : State) : (advance f s).run = s.run := rfl
@[simp] theorem advance_pendingInput (f : Format) (s : State) : (advance f s).pendingInput = s.pendingInput := rfl
@[simp] theorem advance_mem (f : Format) (s : State) : (advance f s).mem = s.mem := rfl
@[simp] theorem advance_output (f : Format) (s : State) : (advance f s).output = s.output := rfl
@[simp] theorem advance_draws (f : Format) (s : State) : (advance f s).draws = s.draws := rfl
@[simp] theorem advance_config (f : Format) (s : State) : (advance f s).config = s.config := rfl

@[simp] theorem latch_regs (a : Addr) (v : Byte) (s : State) : (latch a v s).regs = s.regs := rfl
@[simp] theorem latch_pc (a : Addr) (v : Byte) (s : State) : (latch a v s).pc = s.pc := rfl
@[simp] theorem latch_sr (a : Addr) (v : Byte) (s : State) : (latch a v s).sr = s.sr := rfl
@[simp] theorem latch_sp (a : Addr) (v : Byte) (s : State) : (latch a v s).sp = s.sp := rfl
@[simp] theorem latch_gp (a : Addr) (v : Byte) (s : State) : (latch a v s).gp = s.gp := rfl
@[simp] theorem latch_ir (a : Addr) (v : Byte) (s : State) : (latch a v s).ir = s.ir := rfl
@[simp] theorem latch_mar (a : Addr) (v : Byte) (s : State) : (latch a v s).mar = a := rfl
@[simp] theorem latch_mdr (a : Addr) (v : Byte) (s : State) : (latch a v s).mdr = v := rfl
@[simp] theorem latch_run (a : Addr) (v : Byte) (s : State) : (latch a v s).run = s.run := rfl
@[simp] theorem latch_pendingInput (a : Addr) (v : Byte) (s : State) : (latch a v s).pendingInput = s.pendingInput := rfl
@[simp] theorem latch_mem (a : Addr) (v : Byte) (s : State) : (latch a v s).mem = s.mem := rfl
@[simp] theorem latch_output (a : Addr) (v : Byte) (s : State) : (latch a v s).output = s.output := rfl
@[simp] theorem latch_draws (a : Addr) (v : Byte) (s : State) : (latch a v s).draws = s.draws := rfl
@[simp] theorem latch_config (a : Addr) (v : Byte) (s : State) : (latch a v s).config = s.config := rfl

@[simp] theorem latchOpcode_regs (b : Byte) (s : State) : (latchOpcode b s).regs = s.regs := rfl
@[simp] theorem latchOpcode_pc (b : Byte) (s : State) : (latchOpcode b s).pc = s.pc := rfl
@[simp] theorem latchOpcode_sr (b : Byte) (s : State) : (latchOpcode b s).sr = s.sr := rfl
@[simp] theorem latchOpcode_sp (b : Byte) (s : State) : (latchOpcode b s).sp = s.sp := rfl
@[simp] theorem latchOpcode_gp (b : Byte) (s : State) : (latchOpcode b s).gp = s.gp := rfl
@[simp] theorem latchOpcode_ir (b : Byte) (s : State) : (latchOpcode b s).ir = b := rfl
@[simp] theorem latchOpcode_mar (b : Byte) (s : State) : (latchOpcode b s).mar = s.mar := rfl
@[simp] theorem latchOpcode_mdr (b : Byte) (s : State) : (latchOpcode b s).mdr = s.mdr := rfl
@[simp] theorem latchOpcode_run (b : Byte) (s : State) : (latchOpcode b s).run = s.run := rfl
@[simp] theorem latchOpcode_pendingInput (b : Byte) (s : State) : (latchOpcode b s).pendingInput = s.pendingInput := rfl
@[simp] theorem latchOpcode_mem (b : Byte) (s : State) : (latchOpcode b s).mem = s.mem := rfl
@[simp] theorem latchOpcode_output (b : Byte) (s : State) : (latchOpcode b s).output = s.output := rfl
@[simp] theorem latchOpcode_draws (b : Byte) (s : State) : (latchOpcode b s).draws = s.draws := rfl
@[simp] theorem latchOpcode_config (b : Byte) (s : State) : (latchOpcode b s).config = s.config := rfl

@[simp] theorem countDraw_regs (s : State) : (countDraw s).regs = s.regs := rfl
@[simp] theorem countDraw_pc (s : State) : (countDraw s).pc = s.pc := rfl
@[simp] theorem countDraw_sr (s : State) : (countDraw s).sr = s.sr := rfl
@[simp] theorem countDraw_sp (s : State) : (countDraw s).sp = s.sp := rfl
@[simp] theorem countDraw_gp (s : State) : (countDraw s).gp = s.gp := rfl
@[simp] theorem countDraw_ir (s : State) : (countDraw s).ir = s.ir := rfl
@[simp] theorem countDraw_mar (s : State) : (countDraw s).mar = s.mar := rfl
@[simp] theorem countDraw_mdr (s : State) : (countDraw s).mdr = s.mdr := rfl
@[simp] theorem countDraw_run (s : State) : (countDraw s).run = s.run := rfl
@[simp] theorem countDraw_pendingInput (s : State) : (countDraw s).pendingInput = s.pendingInput := rfl
@[simp] theorem countDraw_mem (s : State) : (countDraw s).mem = s.mem := rfl
@[simp] theorem countDraw_output (s : State) : (countDraw s).output = s.output := rfl
@[simp] theorem countDraw_draws (s : State) : (countDraw s).draws = s.draws + 1 := rfl
@[simp] theorem countDraw_config (s : State) : (countDraw s).config = s.config := rfl

@[simp] theorem poke_regs (a : Addr) (v : Byte) (s : State) : (poke a v s).regs = s.regs := rfl
@[simp] theorem poke_pc (a : Addr) (v : Byte) (s : State) : (poke a v s).pc = s.pc := rfl
@[simp] theorem poke_sr (a : Addr) (v : Byte) (s : State) : (poke a v s).sr = s.sr := rfl
@[simp] theorem poke_sp (a : Addr) (v : Byte) (s : State) : (poke a v s).sp = s.sp := rfl
@[simp] theorem poke_gp (a : Addr) (v : Byte) (s : State) : (poke a v s).gp = s.gp := rfl
@[simp] theorem poke_ir (a : Addr) (v : Byte) (s : State) : (poke a v s).ir = s.ir := rfl
@[simp] theorem poke_mar (a : Addr) (v : Byte) (s : State) : (poke a v s).mar = s.mar := rfl
@[simp] theorem poke_mdr (a : Addr) (v : Byte) (s : State) : (poke a v s).mdr = s.mdr := rfl
@[simp] theorem poke_run (a : Addr) (v : Byte) (s : State) : (poke a v s).run = s.run := rfl
@[simp] theorem poke_pendingInput (a : Addr) (v : Byte) (s : State) : (poke a v s).pendingInput = s.pendingInput := rfl
@[simp] theorem poke_mem (a : Addr) (v : Byte) (s : State) : (poke a v s).mem = Memory.set s.mem a.toNat v := rfl
@[simp] theorem poke_output (a : Addr) (v : Byte) (s : State) : (poke a v s).output = s.output := rfl
@[simp] theorem poke_draws (a : Addr) (v : Byte) (s : State) : (poke a v s).draws = s.draws := rfl
@[simp] theorem poke_config (a : Addr) (v : Byte) (s : State) : (poke a v s).config = s.config := rfl

@[simp] theorem writeZ_regs (z : Bool) (s : State) : (writeZ z s).regs = s.regs := rfl
@[simp] theorem writeZ_pc (z : Bool) (s : State) : (writeZ z s).pc = s.pc := rfl
@[simp] theorem writeZ_sr (z : Bool) (s : State) : (writeZ z s).sr = srWithZ z s.sr := rfl
@[simp] theorem writeZ_sp (z : Bool) (s : State) : (writeZ z s).sp = s.sp := rfl
@[simp] theorem writeZ_gp (z : Bool) (s : State) : (writeZ z s).gp = s.gp := rfl
@[simp] theorem writeZ_ir (z : Bool) (s : State) : (writeZ z s).ir = s.ir := rfl
@[simp] theorem writeZ_mar (z : Bool) (s : State) : (writeZ z s).mar = s.mar := rfl
@[simp] theorem writeZ_mdr (z : Bool) (s : State) : (writeZ z s).mdr = s.mdr := rfl
@[simp] theorem writeZ_run (z : Bool) (s : State) : (writeZ z s).run = s.run := rfl
@[simp] theorem writeZ_pendingInput (z : Bool) (s : State) : (writeZ z s).pendingInput = s.pendingInput := rfl
@[simp] theorem writeZ_mem (z : Bool) (s : State) : (writeZ z s).mem = s.mem := rfl
@[simp] theorem writeZ_output (z : Bool) (s : State) : (writeZ z s).output = s.output := rfl
@[simp] theorem writeZ_draws (z : Bool) (s : State) : (writeZ z s).draws = s.draws := rfl
@[simp] theorem writeZ_config (z : Bool) (s : State) : (writeZ z s).config = s.config := rfl

@[simp] theorem writeC_regs (c : Bool) (s : State) : (writeC c s).regs = s.regs := rfl
@[simp] theorem writeC_pc (c : Bool) (s : State) : (writeC c s).pc = s.pc := rfl
@[simp] theorem writeC_sr (c : Bool) (s : State) : (writeC c s).sr = srWithC c s.sr := rfl
@[simp] theorem writeC_sp (c : Bool) (s : State) : (writeC c s).sp = s.sp := rfl
@[simp] theorem writeC_gp (c : Bool) (s : State) : (writeC c s).gp = s.gp := rfl
@[simp] theorem writeC_ir (c : Bool) (s : State) : (writeC c s).ir = s.ir := rfl
@[simp] theorem writeC_mar (c : Bool) (s : State) : (writeC c s).mar = s.mar := rfl
@[simp] theorem writeC_mdr (c : Bool) (s : State) : (writeC c s).mdr = s.mdr := rfl
@[simp] theorem writeC_run (c : Bool) (s : State) : (writeC c s).run = s.run := rfl
@[simp] theorem writeC_pendingInput (c : Bool) (s : State) : (writeC c s).pendingInput = s.pendingInput := rfl
@[simp] theorem writeC_mem (c : Bool) (s : State) : (writeC c s).mem = s.mem := rfl
@[simp] theorem writeC_output (c : Bool) (s : State) : (writeC c s).output = s.output := rfl
@[simp] theorem writeC_draws (c : Bool) (s : State) : (writeC c s).draws = s.draws := rfl
@[simp] theorem writeC_config (c : Bool) (s : State) : (writeC c s).config = s.config := rfl

@[simp] theorem hostOut_regs (k : IoKind) (b : Byte) (s : State) : (hostOut k b s).regs = s.regs := rfl
@[simp] theorem hostOut_pc (k : IoKind) (b : Byte) (s : State) : (hostOut k b s).pc = s.pc := rfl
@[simp] theorem hostOut_sr (k : IoKind) (b : Byte) (s : State) : (hostOut k b s).sr = s.sr := rfl
@[simp] theorem hostOut_sp (k : IoKind) (b : Byte) (s : State) : (hostOut k b s).sp = s.sp := rfl
@[simp] theorem hostOut_gp (k : IoKind) (b : Byte) (s : State) : (hostOut k b s).gp = s.gp := rfl
@[simp] theorem hostOut_ir (k : IoKind) (b : Byte) (s : State) : (hostOut k b s).ir = s.ir := rfl
@[simp] theorem hostOut_mar (k : IoKind) (b : Byte) (s : State) : (hostOut k b s).mar = s.mar := rfl
@[simp] theorem hostOut_mdr (k : IoKind) (b : Byte) (s : State) : (hostOut k b s).mdr = s.mdr := rfl
@[simp] theorem hostOut_run (k : IoKind) (b : Byte) (s : State) : (hostOut k b s).run = s.run := rfl
@[simp] theorem hostOut_pendingInput (k : IoKind) (b : Byte) (s : State) : (hostOut k b s).pendingInput = s.pendingInput := rfl
@[simp] theorem hostOut_mem (k : IoKind) (b : Byte) (s : State) : (hostOut k b s).mem = s.mem := rfl
@[simp] theorem hostOut_output (k : IoKind) (b : Byte) (s : State) : (hostOut k b s).output = s.output ++ [(k, b)] := rfl
@[simp] theorem hostOut_draws (k : IoKind) (b : Byte) (s : State) : (hostOut k b s).draws = s.draws := rfl
@[simp] theorem hostOut_config (k : IoKind) (b : Byte) (s : State) : (hostOut k b s).config = s.config := rfl

@[simp] theorem movePointer_regs (d : Byte) (s : State) : (movePointer d s).regs = s.regs := rfl
@[simp] theorem movePointer_pc (d : Byte) (s : State) : (movePointer d s).pc = s.pc := rfl
@[simp] theorem movePointer_sr (d : Byte) (s : State) : (movePointer d s).sr = s.sr := rfl
@[simp] theorem movePointer_sp (d : Byte) (s : State) : (movePointer d s).sp = s.sp := rfl
@[simp] theorem movePointer_gp (d : Byte) (s : State) : (movePointer d s).gp = s.gp + sext16 d := rfl
@[simp] theorem movePointer_ir (d : Byte) (s : State) : (movePointer d s).ir = s.ir := rfl
@[simp] theorem movePointer_mar (d : Byte) (s : State) : (movePointer d s).mar = s.mar := rfl
@[simp] theorem movePointer_mdr (d : Byte) (s : State) : (movePointer d s).mdr = s.mdr := rfl
@[simp] theorem movePointer_run (d : Byte) (s : State) : (movePointer d s).run = s.run := rfl
@[simp] theorem movePointer_pendingInput (d : Byte) (s : State) : (movePointer d s).pendingInput = s.pendingInput := rfl
@[simp] theorem movePointer_mem (d : Byte) (s : State) : (movePointer d s).mem = s.mem := rfl
@[simp] theorem movePointer_output (d : Byte) (s : State) : (movePointer d s).output = s.output := rfl
@[simp] theorem movePointer_draws (d : Byte) (s : State) : (movePointer d s).draws = s.draws := rfl
@[simp] theorem movePointer_config (d : Byte) (s : State) : (movePointer d s).config = s.config := rfl

@[simp] theorem faultedState_regs (f : Fault) (s : State) : (faultedState f s).regs = s.regs := rfl
@[simp] theorem faultedState_pc (f : Fault) (s : State) : (faultedState f s).pc = s.pc := rfl
@[simp] theorem faultedState_sr (f : Fault) (s : State) : (faultedState f s).sr = s.sr := rfl
@[simp] theorem faultedState_sp (f : Fault) (s : State) : (faultedState f s).sp = s.sp := rfl
@[simp] theorem faultedState_gp (f : Fault) (s : State) : (faultedState f s).gp = s.gp := rfl
@[simp] theorem faultedState_ir (f : Fault) (s : State) : (faultedState f s).ir = s.ir := rfl
@[simp] theorem faultedState_mar (f : Fault) (s : State) : (faultedState f s).mar = s.mar := rfl
@[simp] theorem faultedState_mdr (f : Fault) (s : State) : (faultedState f s).mdr = s.mdr := rfl
@[simp] theorem faultedState_run (f : Fault) (s : State) : (faultedState f s).run = .faulted f := rfl
@[simp] theorem faultedState_pendingInput (f : Fault) (s : State) : (faultedState f s).pendingInput = s.pendingInput := rfl
@[simp] theorem faultedState_mem (f : Fault) (s : State) : (faultedState f s).mem = s.mem := rfl
@[simp] theorem faultedState_output (f : Fault) (s : State) : (faultedState f s).output = s.output := rfl
@[simp] theorem faultedState_draws (f : Fault) (s : State) : (faultedState f s).draws = s.draws := rfl
@[simp] theorem faultedState_config (f : Fault) (s : State) : (faultedState f s).config = s.config := rfl

@[simp] theorem branchIf_regs (c : Cond) (f : Format) (a : Addr) (s : State) : (branchIf c f a s).regs = s.regs := rfl
@[simp] theorem branchIf_pc (c : Cond) (f : Format) (a : Addr) (s : State) : (branchIf c f a s).pc = if condHolds c (flagZ s) (flagC s) then a else nextPc f s := rfl
@[simp] theorem branchIf_sr (c : Cond) (f : Format) (a : Addr) (s : State) : (branchIf c f a s).sr = s.sr := rfl
@[simp] theorem branchIf_sp (c : Cond) (f : Format) (a : Addr) (s : State) : (branchIf c f a s).sp = s.sp := rfl
@[simp] theorem branchIf_gp (c : Cond) (f : Format) (a : Addr) (s : State) : (branchIf c f a s).gp = s.gp := rfl
@[simp] theorem branchIf_ir (c : Cond) (f : Format) (a : Addr) (s : State) : (branchIf c f a s).ir = s.ir := rfl
@[simp] theorem branchIf_mar (c : Cond) (f : Format) (a : Addr) (s : State) : (branchIf c f a s).mar = s.mar := rfl
@[simp] theorem branchIf_mdr (c : Cond) (f : Format) (a : Addr) (s : State) : (branchIf c f a s).mdr = s.mdr := rfl
@[simp] theorem branchIf_run (c : Cond) (f : Format) (a : Addr) (s : State) : (branchIf c f a s).run = s.run := rfl
@[simp] theorem branchIf_pendingInput (c : Cond) (f : Format) (a : Addr) (s : State) : (branchIf c f a s).pendingInput = s.pendingInput := rfl
@[simp] theorem branchIf_mem (c : Cond) (f : Format) (a : Addr) (s : State) : (branchIf c f a s).mem = s.mem := rfl
@[simp] theorem branchIf_output (c : Cond) (f : Format) (a : Addr) (s : State) : (branchIf c f a s).output = s.output := rfl
@[simp] theorem branchIf_draws (c : Cond) (f : Format) (a : Addr) (s : State) : (branchIf c f a s).draws = s.draws := rfl
@[simp] theorem branchIf_config (c : Cond) (f : Format) (a : Addr) (s : State) : (branchIf c f a s).config = s.config := rfl

@[simp] theorem storeByte_regs (a : Addr) (v : Byte) (s : State) : (storeByte a v s).regs = s.regs := rfl
@[simp] theorem storeByte_pc (a : Addr) (v : Byte) (s : State) : (storeByte a v s).pc = s.pc := rfl
@[simp] theorem storeByte_sr (a : Addr) (v : Byte) (s : State) : (storeByte a v s).sr = s.sr := rfl
@[simp] theorem storeByte_sp (a : Addr) (v : Byte) (s : State) : (storeByte a v s).sp = s.sp := rfl
@[simp] theorem storeByte_gp (a : Addr) (v : Byte) (s : State) : (storeByte a v s).gp = s.gp := rfl
@[simp] theorem storeByte_ir (a : Addr) (v : Byte) (s : State) : (storeByte a v s).ir = s.ir := rfl
@[simp] theorem storeByte_mar (a : Addr) (v : Byte) (s : State) : (storeByte a v s).mar = a := rfl
@[simp] theorem storeByte_mdr (a : Addr) (v : Byte) (s : State) : (storeByte a v s).mdr = v := rfl
@[simp] theorem storeByte_run (a : Addr) (v : Byte) (s : State) : (storeByte a v s).run = s.run := rfl
@[simp] theorem storeByte_pendingInput (a : Addr) (v : Byte) (s : State) : (storeByte a v s).pendingInput = s.pendingInput := rfl
@[simp] theorem storeByte_mem (a : Addr) (v : Byte) (s : State) : (storeByte a v s).mem = Memory.set s.mem a.toNat v := rfl
@[simp] theorem storeByte_output (a : Addr) (v : Byte) (s : State) : (storeByte a v s).output = s.output := rfl
@[simp] theorem storeByte_draws (a : Addr) (v : Byte) (s : State) : (storeByte a v s).draws = s.draws := rfl
@[simp] theorem storeByte_config (a : Addr) (v : Byte) (s : State) : (storeByte a v s).config = s.config := rfl

@[simp] theorem depositInput_regs (k : IoKind) (p : Byte × Byte) (s : State) : (depositInput k p s).regs = s.regs := rfl
@[simp] theorem depositInput_pc (k : IoKind) (p : Byte × Byte) (s : State) : (depositInput k p s).pc = s.pc := rfl
@[simp] theorem depositInput_sr (k : IoKind) (p : Byte × Byte) (s : State) : (depositInput k p s).sr = s.sr := rfl
@[simp] theorem depositInput_sp (k : IoKind) (p : Byte × Byte) (s : State) : (depositInput k p s).sp = s.sp := rfl
@[simp] theorem depositInput_gp (k : IoKind) (p : Byte × Byte) (s : State) : (depositInput k p s).gp = s.gp := rfl
@[simp] theorem depositInput_ir (k : IoKind) (p : Byte × Byte) (s : State) : (depositInput k p s).ir = s.ir := rfl
@[simp] theorem depositInput_mar (k : IoKind) (p : Byte × Byte) (s : State) : (depositInput k p s).mar = ioData k := rfl
@[simp] theorem depositInput_mdr (k : IoKind) (p : Byte × Byte) (s : State) : (depositInput k p s).mdr = p.2 := rfl
@[simp] theorem depositInput_run (k : IoKind) (p : Byte × Byte) (s : State) : (depositInput k p s).run = s.run := rfl
@[simp] theorem depositInput_pendingInput (k : IoKind) (p : Byte × Byte) (s : State) : (depositInput k p s).pendingInput = s.pendingInput := rfl
@[simp] theorem depositInput_output (k : IoKind) (p : Byte × Byte) (s : State) : (depositInput k p s).output = s.output := rfl
@[simp] theorem depositInput_draws (k : IoKind) (p : Byte × Byte) (s : State) : (depositInput k p s).draws = s.draws := rfl
@[simp] theorem depositInput_config (k : IoKind) (p : Byte × Byte) (s : State) : (depositInput k p s).config = s.config := rfl

@[simp] theorem takeInput_none_regs (k : IoKind) (s : State) : (takeInput k none s).regs = s.regs := rfl
@[simp] theorem takeInput_none_pc (k : IoKind) (s : State) : (takeInput k none s).pc = s.pc := rfl
@[simp] theorem takeInput_none_sr (k : IoKind) (s : State) : (takeInput k none s).sr = s.sr := rfl
@[simp] theorem takeInput_none_sp (k : IoKind) (s : State) : (takeInput k none s).sp = s.sp := rfl
@[simp] theorem takeInput_none_gp (k : IoKind) (s : State) : (takeInput k none s).gp = s.gp := rfl
@[simp] theorem takeInput_none_ir (k : IoKind) (s : State) : (takeInput k none s).ir = s.ir := rfl
@[simp] theorem takeInput_none_mar (k : IoKind) (s : State) : (takeInput k none s).mar = s.mar := rfl
@[simp] theorem takeInput_none_mdr (k : IoKind) (s : State) : (takeInput k none s).mdr = s.mdr := rfl
@[simp] theorem takeInput_none_run (k : IoKind) (s : State) : (takeInput k none s).run = s.run := rfl
@[simp] theorem takeInput_none_pendingInput (k : IoKind) (s : State) : (takeInput k none s).pendingInput = some k := rfl
@[simp] theorem takeInput_none_mem (k : IoKind) (s : State) : (takeInput k none s).mem = s.mem := rfl
@[simp] theorem takeInput_none_output (k : IoKind) (s : State) : (takeInput k none s).output = s.output := rfl
@[simp] theorem takeInput_none_draws (k : IoKind) (s : State) : (takeInput k none s).draws = s.draws + 1 := rfl
@[simp] theorem takeInput_none_config (k : IoKind) (s : State) : (takeInput k none s).config = s.config := rfl

@[simp] theorem takeInput_some_regs (k : IoKind) (p : Byte × Byte) (s : State) : (takeInput k (some p) s).regs = s.regs := rfl
@[simp] theorem takeInput_some_pc (k : IoKind) (p : Byte × Byte) (s : State) : (takeInput k (some p) s).pc = s.pc + 1 := rfl
@[simp] theorem takeInput_some_sr (k : IoKind) (p : Byte × Byte) (s : State) : (takeInput k (some p) s).sr = s.sr := rfl
@[simp] theorem takeInput_some_sp (k : IoKind) (p : Byte × Byte) (s : State) : (takeInput k (some p) s).sp = s.sp := rfl
@[simp] theorem takeInput_some_gp (k : IoKind) (p : Byte × Byte) (s : State) : (takeInput k (some p) s).gp = s.gp := rfl
@[simp] theorem takeInput_some_ir (k : IoKind) (p : Byte × Byte) (s : State) : (takeInput k (some p) s).ir = s.ir := rfl
@[simp] theorem takeInput_some_mar (k : IoKind) (p : Byte × Byte) (s : State) : (takeInput k (some p) s).mar = ioData k := rfl
@[simp] theorem takeInput_some_mdr (k : IoKind) (p : Byte × Byte) (s : State) : (takeInput k (some p) s).mdr = p.2 := rfl
@[simp] theorem takeInput_some_run (k : IoKind) (p : Byte × Byte) (s : State) : (takeInput k (some p) s).run = s.run := rfl
@[simp] theorem takeInput_some_pendingInput (k : IoKind) (p : Byte × Byte) (s : State) : (takeInput k (some p) s).pendingInput = none := rfl
@[simp] theorem takeInput_some_mem (k : IoKind) (p : Byte × Byte) (s : State) : (takeInput k (some p) s).mem = (depositInput k p s).mem := rfl
@[simp] theorem takeInput_some_output (k : IoKind) (p : Byte × Byte) (s : State) : (takeInput k (some p) s).output = s.output := rfl
@[simp] theorem takeInput_some_draws (k : IoKind) (p : Byte × Byte) (s : State) : (takeInput k (some p) s).draws = s.draws + 1 := rfl
@[simp] theorem takeInput_some_config (k : IoKind) (p : Byte × Byte) (s : State) : (takeInput k (some p) s).config = s.config := rfl

end Sys2Proof.Machine
end

