-- ==== Sys2Proof/Laws/Ops.lean ====
section
/-! SUPPORT. What each shared operation can do, said once: registers, flags, the map, the access primitives, the stack and the
host's answer. -/

namespace Sys2Proof.Machine

/-! ### Registers -/

@[simp] theorem readReg_zero (s : State) : readReg 15 s = 0x00 := rfl

theorem readReg_writeReg_same (r : Reg) (v : Byte) (s : State) :
    readReg r (writeReg r v s) = if r = 15 then 0x00 else v := by
  unfold readReg writeReg
  by_cases h : r.val < 15
  · have : r ≠ 15 := fun e => by subst e; exact absurd h (by decide)
    simp [h, this]
  · have : r = 15 := Fin.ext (by have := r.isLt; show r.val = 15; omega)
    simp [this]

theorem readReg_writeReg_other {r q : Reg} (v : Byte) (s : State) (h : r ≠ q) :
    readReg r (writeReg q v s) = readReg r s := by
  unfold readReg writeReg
  by_cases hr : r.val < 15
  · by_cases hq : q.val < 15
    · have : q.val ≠ r.val := fun e => h (Fin.ext e.symm)
      simp [hr, hq, this]
    · simp [hr, hq]
  · simp [hr]

/-- A register's value depends on the register file alone. -/
theorem readReg_congr {s t : State} (h : t.regs = s.regs) (r : Reg) : readReg r t = readReg r s := by
  unfold readReg
  simp [h]

/-! ### Flags -/

theorem flagZ_srWithZ (z : Bool) (sr : Byte) : (srWithZ z sr).getLsbD 1 = z := by
  cases z <;> simp [srWithZ]

theorem flagC_srWithC (c : Bool) (sr : Byte) : (srWithC c sr).getLsbD 0 = c := by
  cases c <;> simp [srWithC]

theorem flagC_srWithZ (z : Bool) (sr : Byte) : (srWithZ z sr).getLsbD 0 = sr.getLsbD 0 := by
  cases z <;> simp [srWithZ]

theorem flagZ_srWithC (c : Bool) (sr : Byte) : (srWithC c sr).getLsbD 1 = sr.getLsbD 1 := by
  cases c <;> simp [srWithC]

@[simp] theorem reserved_srWithZ (z : Bool) (sr : Byte) : (srWithZ z sr).extractLsb' 2 6 = sr.extractLsb' 2 6 := by
  have hi : ∀ i < 6, (0xFD#8).getLsbD (2 + i) = true ∧ (0x02#8).getLsbD (2 + i) = false := by decide
  apply BitVec.eq_of_getLsbD_eq
  intro i h
  cases z <;> simp [srWithZ, BitVec.getLsbD_extractLsb', hi i h]

@[simp] theorem reserved_srWithC (c : Bool) (sr : Byte) : (srWithC c sr).extractLsb' 2 6 = sr.extractLsb' 2 6 := by
  have hi : ∀ i < 6, (0xFE#8).getLsbD (2 + i) = true ∧ (0x01#8).getLsbD (2 + i) = false := by decide
  apply BitVec.eq_of_getLsbD_eq
  intro i h
  cases c <;> simp [srWithC, BitVec.getLsbD_extractLsb', hi i h]

/-! ### Registers, flags and memory content under the updates of other state -/

@[simp] theorem readReg_advance (r : Reg) (f : Format) (s : State) : readReg r (advance f s) = readReg r s := rfl
@[simp] theorem readReg_latch (r : Reg) (a : Addr) (v : Byte) (s : State) : readReg r (latch a v s) = readReg r s := rfl
@[simp] theorem readReg_latchOpcode (r : Reg) (b : Byte) (s : State) : readReg r (latchOpcode b s) = readReg r s := rfl
@[simp] theorem readReg_countDraw (r : Reg) (s : State) : readReg r (countDraw s) = readReg r s := rfl
@[simp] theorem readReg_poke (r : Reg) (a : Addr) (v : Byte) (s : State) : readReg r (poke a v s) = readReg r s := rfl
@[simp] theorem readReg_writeZ (r : Reg) (z : Bool) (s : State) : readReg r (writeZ z s) = readReg r s := rfl
@[simp] theorem readReg_writeC (r : Reg) (c : Bool) (s : State) : readReg r (writeC c s) = readReg r s := rfl
@[simp] theorem readReg_hostOut (r : Reg) (k : IoKind) (b : Byte) (s : State) : readReg r (hostOut k b s) = readReg r s := rfl
@[simp] theorem readReg_movePointer (r : Reg) (d : Byte) (s : State) : readReg r (movePointer d s) = readReg r s := rfl
@[simp] theorem flagZ_advance (f : Format) (s : State) : flagZ (advance f s) = flagZ s := rfl
@[simp] theorem flagC_advance (f : Format) (s : State) : flagC (advance f s) = flagC s := rfl
@[simp] theorem flagZ_latch (a : Addr) (v : Byte) (s : State) : flagZ (latch a v s) = flagZ s := rfl
@[simp] theorem flagC_latch (a : Addr) (v : Byte) (s : State) : flagC (latch a v s) = flagC s := rfl
@[simp] theorem flagZ_latchOpcode (b : Byte) (s : State) : flagZ (latchOpcode b s) = flagZ s := rfl
@[simp] theorem flagC_latchOpcode (b : Byte) (s : State) : flagC (latchOpcode b s) = flagC s := rfl
@[simp] theorem flagZ_countDraw (s : State) : flagZ (countDraw s) = flagZ s := rfl
@[simp] theorem flagC_countDraw (s : State) : flagC (countDraw s) = flagC s := rfl
@[simp] theorem flagZ_poke (a : Addr) (v : Byte) (s : State) : flagZ (poke a v s) = flagZ s := rfl
@[simp] theorem flagC_poke (a : Addr) (v : Byte) (s : State) : flagC (poke a v s) = flagC s := rfl
@[simp] theorem flagZ_hostOut (k : IoKind) (b : Byte) (s : State) : flagZ (hostOut k b s) = flagZ s := rfl
@[simp] theorem flagC_hostOut (k : IoKind) (b : Byte) (s : State) : flagC (hostOut k b s) = flagC s := rfl
@[simp] theorem flagZ_movePointer (d : Byte) (s : State) : flagZ (movePointer d s) = flagZ s := rfl
@[simp] theorem flagC_movePointer (d : Byte) (s : State) : flagC (movePointer d s) = flagC s := rfl
@[simp] theorem flagZ_writeReg (q : Reg) (v : Byte) (s : State) : flagZ (writeReg q v s) = flagZ s := rfl
@[simp] theorem flagC_writeReg (q : Reg) (v : Byte) (s : State) : flagC (writeReg q v s) = flagC s := rfl
@[simp] theorem flagZ_writeZ (z : Bool) (s : State) : flagZ (writeZ z s) = z := flagZ_srWithZ z s.sr
@[simp] theorem flagC_writeZ (z : Bool) (s : State) : flagC (writeZ z s) = flagC s := flagC_srWithZ z s.sr
@[simp] theorem flagZ_writeC (c : Bool) (s : State) : flagZ (writeC c s) = flagZ s := flagZ_srWithC c s.sr
@[simp] theorem flagC_writeC (c : Bool) (s : State) : flagC (writeC c s) = c := flagC_srWithC c s.sr
@[simp] theorem peek_advance (f : Format) (s : State) (x : Addr) : peek (advance f s) x = peek s x := rfl
@[simp] theorem peek_latch (a : Addr) (v : Byte) (s : State) (x : Addr) : peek (latch a v s) x = peek s x := rfl
@[simp] theorem peek_latchOpcode (b : Byte) (s : State) (x : Addr) : peek (latchOpcode b s) x = peek s x := rfl
@[simp] theorem peek_countDraw (s : State) (x : Addr) : peek (countDraw s) x = peek s x := rfl
@[simp] theorem peek_writeZ (z : Bool) (s : State) (x : Addr) : peek (writeZ z s) x = peek s x := rfl
@[simp] theorem peek_writeC (c : Bool) (s : State) (x : Addr) : peek (writeC c s) x = peek s x := rfl
@[simp] theorem peek_hostOut (k : IoKind) (b : Byte) (s : State) (x : Addr) : peek (hostOut k b s) x = peek s x := rfl
@[simp] theorem peek_movePointer (d : Byte) (s : State) (x : Addr) : peek (movePointer d s) x = peek s x := rfl
@[simp] theorem peek_writeReg (q : Reg) (v : Byte) (s : State) (x : Addr) : peek (writeReg q v s) x = peek s x := rfl

/-! ### The map -/

/-- The region of an address, in terms of its number. -/
theorem regionOf_cases (a : Addr) :
    (regionOf a = .rom ∧ a.toNat < 0xC000) ∨
    (regionOf a = .ram ∧ 0xC000 ≤ a.toNat ∧ a.toNat < 0xE000) ∨
    (regionOf a = .expansion ∧ 0xE000 ≤ a.toNat ∧ a.toNat < 0xFFC0) ∨
    (regionOf a = .undocumentedIo ∧ 0xFFC0 ≤ a.toNat ∧ a.toNat < 0xFFFB) ∨
    (regionOf a = .mailbox ∧ 0xFFFB ≤ a.toNat) := by
  unfold regionOf
  split_ifs <;> simp only [true_and, false_and, or_false, false_or] <;> omega

@[simp] theorem regionOf_ioStatus (k : IoKind) : regionOf (ioStatus k) = .mailbox := by cases k <;> rfl

@[simp] theorem regionOf_ioData (k : IoKind) : regionOf (ioData k) = .mailbox := by cases k <;> rfl

@[simp] theorem regionOf_ioOut : regionOf ioOut = .mailbox := rfl

/-! ### Reading a byte -/

/-- The two ways a read answers: a latch of the byte, with a draw counted or not. -/
theorem readByte_ok {kind : AccessKind} {a : Addr} {s t : State} {v : Byte} (h : readByte kind a s = .ok (v, t)) :
    t = latch a v s ∨ t = latch a v (countDraw s) := by
  unfold readByte readStored readUnmapped at h
  split at h <;> split at h <;> (try split at h) <;> first
    | (simp only [Except.ok.injEq, Prod.mk.injEq] at h; obtain ⟨rfl, rfl⟩ := h; simp)
    | simp at h

/-- A stored byte is read as it stands. -/
theorem readByte_stored {a : Addr} {s : State} {v : Byte} (kind : AccessKind)
    (hr : (regionOf a).isStorage = true) (hp : peek s a = some v) :
    readByte kind a s = .ok (v, latch a v s) := by
  unfold readByte
  cases hreg : regionOf a <;> simp_all [Region.isStorage, readStored]

/-- The fault a read can raise. -/
theorem readByte_error {kind : AccessKind} {a : Addr} {s : State} {f : Fault} (h : readByte kind a s = .error f) :
    (f = .uninitialisedRead a ∧ (regionOf a).isStorage = true ∧ peek s a = none ∧ s.config.uninit = .fault) ∨
    (f = .unmappedAccess a kind ∧ (regionOf a).isStorage = false ∧ s.config.unmapped = .fault) := by
  unfold readByte readStored readUnmapped at h
  split at h <;> split at h <;> (try split at h) <;> simp_all [Region.isStorage]

/-! ### Writing a byte -/

/-- The two ways a write answers: the byte is stored in RAM or a mailbox, or dropped elsewhere. -/
theorem writeByte_ok {a : Addr} {v : Byte} {s t : State} (h : writeByte a v s = .ok t) :
    ((regionOf a = .ram ∨ regionOf a = .mailbox) ∧ t = storeByte a v s) ∨
    (regionOf a ≠ .ram ∧ regionOf a ≠ .mailbox ∧ t = latch a v s) := by
  unfold writeByte writeRom writeUnmapped at h
  split at h <;> (try split at h) <;> simp_all

/-- A write to RAM or a mailbox stores the byte. -/
theorem writeByte_stored {a : Addr} (v : Byte) (s : State) (h : regionOf a = .ram ∨ regionOf a = .mailbox) :
    writeByte a v s = .ok (storeByte a v s) := by
  unfold writeByte
  rcases h with h | h <;> rw [h]

/-- The fault a write can raise. -/
theorem writeByte_error {a : Addr} {v : Byte} {s : State} {f : Fault} (h : writeByte a v s = .error f) :
    (f = .romWrite a v ∧ regionOf a = .rom ∧ s.config.romWrite = .fault) ∨
    (f = .unmappedAccess a .write ∧ (regionOf a).isStorage = false ∧ s.config.unmapped = .fault) := by
  unfold writeByte writeRom writeUnmapped at h
  split at h <;> (try split at h) <;> simp_all [Region.isStorage]

/-- The content of memory depends on the memory alone. -/
theorem peek_congr {s t : State} (h : t.mem = s.mem) (a : Addr) : peek t a = peek s a := by
  unfold peek
  rw [h]

/-- A write leaves every other byte alone. -/
theorem writeByte_peek_other {a b : Addr} {v : Byte} {s t : State} (h : writeByte a v s = .ok t) (hb : b ≠ a) :
    peek t b = peek s b := by
  rcases writeByte_ok h with ⟨-, rfl⟩ | ⟨-, -, rfl⟩
  · exact peek_storeByte_other v s hb
  · exact peek_congr rfl b

/-- What a write never touches. -/
theorem writeByte_frame {a : Addr} {v : Byte} {s t : State} (h : writeByte a v s = .ok t) :
    t.regs = s.regs ∧ t.pc = s.pc ∧ t.sr = s.sr ∧ t.sp = s.sp ∧ t.gp = s.gp ∧ t.ir = s.ir ∧ t.mar = a ∧ t.mdr = v ∧
    t.run = s.run ∧ t.output = s.output ∧ t.draws = s.draws ∧ t.config = s.config ∧ t.pendingInput = s.pendingInput := by
  rcases writeByte_ok h with ⟨-, rfl⟩ | ⟨-, -, rfl⟩ <;> simp

/-- What a read never touches. -/
theorem readByte_frame {kind : AccessKind} {a : Addr} {s t : State} {v : Byte} (h : readByte kind a s = .ok (v, t)) :
    t.regs = s.regs ∧ t.pc = s.pc ∧ t.sr = s.sr ∧ t.sp = s.sp ∧ t.gp = s.gp ∧ t.ir = s.ir ∧ t.mar = a ∧ t.mdr = v ∧
    t.run = s.run ∧ t.mem = s.mem ∧ t.output = s.output ∧ t.config = s.config ∧ t.pendingInput = s.pendingInput := by
  rcases readByte_ok h with rfl | rfl <;> simp

/-! ### The stack and the host -/

/-- A pop is a read at SP, then SP one higher. -/
theorem pop8_ok {s t : State} {b : Byte} (h : pop8 s = .ok (b, t)) :
    ∃ u, readByte .read s.sp s = .ok (b, u) ∧ t = { u with sp := s.sp + 1 } := by
  unfold pop8 at h
  cases hr : readByte .read s.sp s with
  | error f => simp [hr, bind, Except.bind] at h
  | ok p =>
    obtain ⟨c, u⟩ := p
    simp only [hr, bind, Except.bind, Except.ok.injEq, Prod.mk.injEq] at h
    obtain ⟨rfl, rfl⟩ := h
    exact ⟨u, rfl, by rw [(readByte_frame hr).2.2.2.1]⟩

/-- A push of 16 bits is two pushes of a byte. -/
theorem push16_ok {v : Addr} {s t : State} (h : push16 v s = .ok t) :
    ∃ u, push8 (pushedFirst s.config.stackByteOrder v) s = .ok u ∧
      push8 (pushedSecond s.config.stackByteOrder v) u = .ok t := by
  unfold push16 at h
  cases hp : push8 (pushedFirst s.config.stackByteOrder v) s with
  | error f => simp [hp, bind, Except.bind] at h
  | ok u => exact ⟨u, rfl, by simpa [hp, bind, Except.bind] using h⟩

/-- A pop of 16 bits is two pops of a byte. -/
theorem pop16_ok {s t : State} {a : Addr} (h : pop16 s = .ok (a, t)) :
    ∃ lower u higher, pop8 s = .ok (lower, u) ∧ pop8 u = .ok (higher, t) ∧
      a = joinPopped s.config.stackByteOrder lower higher := by
  unfold pop16 at h
  cases h1 : pop8 s with
  | error f => simp [h1, bind, Except.bind] at h
  | ok p =>
    obtain ⟨lower, u⟩ := p
    cases h2 : pop8 u with
    | error f => simp [h1, h2, bind, Except.bind] at h
    | ok q =>
      obtain ⟨higher, w⟩ := q
      simp only [h1, h2, bind, Except.bind, Except.ok.injEq, Prod.mk.injEq] at h
      obtain ⟨rfl, rfl⟩ := h
      exact ⟨lower, u, higher, rfl, h2, rfl⟩

/-- The two stores of an answer are the writes of R183 and R186: both mailbox bytes are storage. -/
theorem depositInput_eq (kind : IoKind) (answer : Byte × Byte) (s : State) :
    (writeByte (ioStatus kind) answer.1 s >>= writeByte (ioData kind) answer.2) = .ok (depositInput kind answer s) := by
  simp [depositInput, writeByte, bind, Except.bind]

/-- All that an answer's two stores do. -/
theorem depositInput_frame (kind : IoKind) (answer : Byte × Byte) (s : State) :
    depositInput kind answer s =
      { s with mem := (depositInput kind answer s).mem, mar := ioData kind, mdr := answer.2 } ∧
    peek (depositInput kind answer s) (ioStatus kind) = some answer.1 ∧
    peek (depositInput kind answer s) (ioData kind) = some answer.2 ∧
    ∀ a, a ∉ [ioStatus kind, ioData kind] → peek (depositInput kind answer s) a = peek s a := by
  refine ⟨rfl, ?_, peek_storeByte_same _ _ _, fun a ha => ?_⟩
  · refine (peek_storeByte_other (a := ioData kind) _ _ ?_).trans (peek_storeByte_same _ _ _)
    cases kind <;> decide
  · simp only [List.mem_cons, List.not_mem_nil, or_false, not_or] at ha
    exact (peek_storeByte_other _ _ ha.2).trans (peek_storeByte_other _ _ ha.1)

/-- A turn of an IN or a GETC either waits or takes an answer. -/
theorem inputTurn_cases (kind : IoKind) (s : State) :
    (Config.hostInput kind s.draws = none ∧ inputTurn kind s = { s with draws := s.draws + 1, pendingInput := some kind }) ∨
    ∃ answer, Config.hostInput kind s.draws = some answer ∧
      inputTurn kind s = takeInput kind (some answer) s := by
  unfold inputTurn
  cases Config.hostInput kind s.draws with
  | none => exact .inl ⟨rfl, rfl⟩
  | some answer => exact .inr ⟨answer, rfl, rfl⟩

/-! ### Outcomes -/

theorem outcomeOf_next {x : Except Fault State} {t : State} (h : outcomeOf x = .next t) : x = .ok t := by
  cases x <;> simp_all [outcomeOf]

theorem outcomeOf_fault {x : Except Fault State} {f : Fault} (h : outcomeOf x = .fault f) : x = .error f := by
  cases x <;> simp_all [outcomeOf]

theorem outcomeOf_not_refused (x : Except Fault State) (r : Refusal) : outcomeOf x ≠ .refused r := by
  cases x <;> simp [outcomeOf]

end Sys2Proof.Machine
end

