-- ==== Sys2Proof/Laws/Canonical.lean ====
section
/-! SUPPORT. Every operation that writes memory keeps its canonical form. -/

namespace Sys2Proof.Machine

/-- A write of a byte, stored or dropped. -/
theorem wf_writeByte {a : Addr} {v : Byte} {s t : State} (h : writeByte a v s = .ok t) (hw : Memory.wf s.mem) :
    Memory.wf t.mem := by
  rcases writeByte_ok h with ⟨-, rfl⟩ | ⟨-, -, rfl⟩
  · exact wf_poke a v hw
  · exact hw

/-- A read writes no memory. -/
theorem wf_readByte {kind : AccessKind} {a : Addr} {v : Byte} {s t : State} (h : readByte kind a s = .ok (v, t))
    (hw : Memory.wf s.mem) : Memory.wf t.mem := by
  rcases readByte_ok h with rfl | rfl <;> exact hw

/-- A push of a byte. -/
theorem wf_push8 {b : Byte} {s t : State} (h : push8 b s = .ok t) (hw : Memory.wf s.mem) : Memory.wf t.mem :=
  wf_writeByte (s := { s with sp := s.sp - 1 }) h hw

/-- A push of two bytes. -/
theorem wf_push16 {v : Addr} {s t : State} (h : push16 v s = .ok t) (hw : Memory.wf s.mem) : Memory.wf t.mem := by
  obtain ⟨u, h1, h2⟩ := push16_ok h
  exact wf_push8 h2 (wf_push8 h1 hw)

/-- The host's answer in a mailbox. -/
theorem wf_depositInput (kind : IoKind) (answer : Byte × Byte) {s : State} (hw : Memory.wf s.mem) :
    Memory.wf (depositInput kind answer s).mem := wf_poke _ _ (wf_poke (s := s) _ _ hw)

/-- A turn of an IN or a GETC. -/
theorem wf_inputTurn (kind : IoKind) {s : State} (hw : Memory.wf s.mem) : Memory.wf (inputTurn kind s).mem := by
  rcases inputTurn_cases kind s with ⟨-, h⟩ | ⟨answer, -, h⟩ <;> rw [h]
  · exact hw
  · exact wf_depositInput kind answer (s := countDraw s) hw

/-- Placing bytes. -/
theorem wf_pokeBytes (bytes : List Byte) (a : Addr) {s : State} (hw : Memory.wf s.mem) :
    Memory.wf (pokeBytes bytes a s).mem := by
  induction bytes generalizing a s with
  | nil => exact hw
  | cons b bytes ih => exact ih _ (wf_poke a b hw)

/-- Loading an image. -/
theorem wf_loadRom (image : List Host.Cell) {s : State} (hw : Memory.wf s.mem) : Memory.wf (loadRom image s).mem := by
  unfold loadRom
  induction image generalizing s with
  | nil => exact hw
  | cons c image ih =>
    refine ih ?_
    dsimp only
    split
    · exact wf_set _ _ (by omega) hw
    · exact hw

/-- A reset keeps the bytes of ROM only. -/
theorem wf_resetState {s : State} (hw : Memory.wf s.mem) : Memory.wf (resetState s).mem :=
  ⟨hw.1.filter _, fun c hc => hw.2 c (List.mem_of_mem_filter hc)⟩

end Sys2Proof.Machine
end

