-- ==== Sys2Proof/Laws/Decode.lean ====
section
/-! SUPPORT. The laws of the encoding's fields: nibbles, address bytes, the opcode byte. -/

namespace Sys2Proof

@[simp] theorem ofByte_byte (op : Opcode) : Opcode.ofByte op.byte = some op := by
  cases op <;> rfl

theorem byte_of_ofByte {b : Byte} {op : Opcode} (h : Opcode.ofByte b = some op) : op.byte = b := by
  have := List.find?_some h
  simpa using this

@[simp] theorem joinBytes_split (a : Addr) : joinBytes (hiByte a) (loByte a) = a := by
  apply BitVec.eq_of_getLsbD_eq
  intro i hi
  simp only [joinBytes, hiByte, loByte, BitVec.getLsbD_append, BitVec.getLsbD_extractLsb']
  split
  · simp [*]
  · have h1 : i - 8 < 8 := by omega
    have h2 : 8 + (i - 8) = i := by omega
    simp [h1, h2]

@[simp] theorem hiByte_join (h l : Byte) : hiByte (joinBytes h l) = h := by
  apply BitVec.eq_of_getLsbD_eq
  intro i hi
  simp only [joinBytes, hiByte, BitVec.getLsbD_extractLsb', BitVec.getLsbD_append]
  simp [hi]

@[simp] theorem loByte_join (h l : Byte) : loByte (joinBytes h l) = l := by
  apply BitVec.eq_of_getLsbD_eq
  intro i hi
  simp only [joinBytes, loByte, BitVec.getLsbD_extractLsb', BitVec.getLsbD_append]
  simp [hi]

@[simp] theorem hiNibble_registerByte (r : Reg) : hiNibble (registerByte r) = 0 := by
  revert r
  decide

@[simp] theorem loNibble_registerByte (r : Reg) : loNibble (registerByte r) = r := by
  revert r
  decide

theorem hiNibble_val (b : Byte) : (hiNibble b).val = b.toNat / 16 := by
  simp [hiNibble, Nat.shiftRight_eq_div_pow]
  omega

theorem loNibble_val (b : Byte) : (loNibble b).val = b.toNat % 16 := by
  simp [loNibble]

@[simp] theorem hiNibble_pair (ra rb : Reg) : hiNibble (registerPairByte ra rb) = ra := by
  apply Fin.ext
  rw [hiNibble_val]
  simp only [registerPairByte, BitVec.toNat_ofNat]
  omega

@[simp] theorem loNibble_pair (ra rb : Reg) : loNibble (registerPairByte ra rb) = rb := by
  apply Fin.ext
  rw [loNibble_val]
  simp only [registerPairByte, BitVec.toNat_ofNat]
  omega

@[simp] theorem pair_nibbles (b : Byte) : registerPairByte (hiNibble b) (loNibble b) = b := by
  apply BitVec.eq_of_toNat_eq
  simp only [registerPairByte, BitVec.toNat_ofNat, hiNibble_val, loNibble_val]
  omega

theorem registerByte_loNibble {b : Byte} (h : hiNibble b = 0) : registerByte (loNibble b) = b := by
  have h' : b.toNat / 16 = 0 := by rw [← hiNibble_val, h]; rfl
  apply BitVec.eq_of_toNat_eq
  simp only [registerByte, BitVec.toNat_ofNat, loNibble_val]
  omega

end Sys2Proof
end

