-- ==== Sys2Proof/Laws/PerInstr.lean ====
section
/-! SUPPORT. Statements made for every instruction, one lemma a constructor: the encoding is the opcode's byte followed by the
operand bytes of its format (30_encoding.md R82, R88, R89). -/

namespace Sys2Proof.Laws.Encoding

/-- The encoding of an instruction has its format's length and begins with its opcode byte, which reads back as its
opcode. -/
def Statement (i : Instr) : Prop :=
  (encode i).length = i.opcode.format.length ∧ (encode i).head? = some i.opcode.byte ∧
  Opcode.ofByte i.opcode.byte = some i.opcode

theorem lda (rd : Reg) (addr : Addr) : Statement (.lda rd addr) := ⟨rfl, rfl, rfl⟩
theorem ldi (rd : Reg) (imm : Byte) : Statement (.ldi rd imm) := ⟨rfl, rfl, rfl⟩
theorem sta (rs : Reg) (addr : Addr) : Statement (.sta rs addr) := ⟨rfl, rfl, rfl⟩
theorem mov (rd rs : Reg) : Statement (.mov rd rs) := ⟨rfl, rfl, rfl⟩
theorem add (rd rs : Reg) : Statement (.add rd rs) := ⟨rfl, rfl, rfl⟩
theorem addI (rd : Reg) (imm : Byte) : Statement (.addI rd imm) := ⟨rfl, rfl, rfl⟩
theorem sub (rd rs : Reg) : Statement (.sub rd rs) := ⟨rfl, rfl, rfl⟩
theorem subI (rd : Reg) (imm : Byte) : Statement (.subI rd imm) := ⟨rfl, rfl, rfl⟩
theorem shtL (rd rs : Reg) : Statement (.shtL rd rs) := ⟨rfl, rfl, rfl⟩
theorem shtR (rd rs : Reg) : Statement (.shtR rd rs) := ⟨rfl, rfl, rfl⟩
theorem hlt : Statement (.hlt) := ⟨rfl, rfl, rfl⟩
theorem jmp (addr : Addr) : Statement (.jmp addr) := ⟨rfl, rfl, rfl⟩
theorem cmp (ra rb : Reg) : Statement (.cmp ra rb) := ⟨rfl, rfl, rfl⟩
theorem cmpI (ra : Reg) (imm : Byte) : Statement (.cmpI ra imm) := ⟨rfl, rfl, rfl⟩
theorem beq (addr : Addr) : Statement (.beq addr) := ⟨rfl, rfl, rfl⟩
theorem bne (addr : Addr) : Statement (.bne addr) := ⟨rfl, rfl, rfl⟩
theorem ble (addr : Addr) : Statement (.ble addr) := ⟨rfl, rfl, rfl⟩
theorem bge (addr : Addr) : Statement (.bge addr) := ⟨rfl, rfl, rfl⟩
theorem blt (addr : Addr) : Statement (.blt addr) := ⟨rfl, rfl, rfl⟩
theorem bgt (addr : Addr) : Statement (.bgt addr) := ⟨rfl, rfl, rfl⟩
theorem beqR (off : Byte) : Statement (.beqR off) := ⟨rfl, rfl, rfl⟩
theorem bneR (off : Byte) : Statement (.bneR off) := ⟨rfl, rfl, rfl⟩
theorem bleR (off : Byte) : Statement (.bleR off) := ⟨rfl, rfl, rfl⟩
theorem bgeR (off : Byte) : Statement (.bgeR off) := ⟨rfl, rfl, rfl⟩
theorem bltR (off : Byte) : Statement (.bltR off) := ⟨rfl, rfl, rfl⟩
theorem bgtR (off : Byte) : Statement (.bgtR off) := ⟨rfl, rfl, rfl⟩
theorem and (rd rs : Reg) : Statement (.and rd rs) := ⟨rfl, rfl, rfl⟩
theorem or (rd rs : Reg) : Statement (.or rd rs) := ⟨rfl, rfl, rfl⟩
theorem xor (rd rs : Reg) : Statement (.xor rd rs) := ⟨rfl, rfl, rfl⟩
theorem not (rd rs : Reg) : Statement (.not rd rs) := ⟨rfl, rfl, rfl⟩
theorem endProgram : Statement (.endProgram) := ⟨rfl, rfl, rfl⟩
theorem input : Statement (.input) := ⟨rfl, rfl, rfl⟩
theorem draw : Statement (.draw) := ⟨rfl, rfl, rfl⟩
theorem out : Statement (.out) := ⟨rfl, rfl, rfl⟩
theorem call (addr : Addr) : Statement (.call addr) := ⟨rfl, rfl, rfl⟩
theorem ret : Statement (.ret) := ⟨rfl, rfl, rfl⟩
theorem iniP (addr : Addr) : Statement (.iniP addr) := ⟨rfl, rfl, rfl⟩
theorem setP (rs : Reg) : Statement (.setP rs) := ⟨rfl, rfl, rfl⟩
theorem getP (rd : Reg) : Statement (.getP rd) := ⟨rfl, rfl, rfl⟩
theorem updP (rs : Reg) : Statement (.updP rs) := ⟨rfl, rfl, rfl⟩
theorem upiP (imm : Byte) : Statement (.upiP imm) := ⟨rfl, rfl, rfl⟩
theorem getc : Statement (.getc) := ⟨rfl, rfl, rfl⟩

end Sys2Proof.Laws.Encoding
end

