-- ==== Sys2Proof/Laws/Step.lean ====
section
/-! SUPPORT. What a step can do, said once: the run state decides. -/

namespace Sys2Proof.Machine

/-- A machine inside an unanswered IN or GETC goes on with that instruction. -/
theorem step_awaiting {s : State} {kind : IoKind} (h : s.run = .running) (hp : s.pendingInput = some kind) :
    step s = exec (inputInstr kind) s := by
  unfold step
  rw [h, hp]
  cases kind <;> rfl

/-- A running machine inside no instruction fetches one and executes it. -/
theorem step_fetching {s t : State} {i : Instr} (h : s.run = .running) (hp : s.pendingInput = none)
    (hf : fetch s = .ok (i, t)) : step s = exec i t := by
  simp [step, h, hp, hf]

/-- A waiting machine takes the host's turn. -/
theorem step_waiting {s : State} (h : s.run = .waiting) : step s = .next (hostTurn s) := by
  unfold step
  rw [h]

/-- The three ways to a next state: an instruction fetched and executed, an IN or a GETC gone on with, the host's turn. -/
theorem step_cases {s t : State} (h : step s = .next t) :
    (s.run = .running ∧ s.pendingInput = none ∧ ∃ i u, fetch s = .ok (i, u) ∧ exec i u = .next t) ∨
    (s.run = .running ∧ ∃ kind, s.pendingInput = some kind ∧ exec (inputInstr kind) s = .next t) ∨
    (s.run = .waiting ∧ t = hostTurn s) := by
  cases hr : s.run with
  | running =>
    cases hp : s.pendingInput with
    | some kind => exact .inr (.inl ⟨rfl, kind, rfl, (step_awaiting hr hp).symm.trans h⟩)
    | none =>
      simp only [step, hr, hp] at h
      split at h
      · exact .inl ⟨rfl, rfl, _, _, by assumption, h⟩
      · cases h
  | waiting =>
    rw [step_waiting hr] at h
    cases h
    exact .inr (.inr ⟨rfl, rfl⟩)
  | ended => simp [step, hr] at h
  | faulted f => simp [step, hr] at h

/-- All that a turn of the host does. -/
theorem hostTurn_eq {s : State} (h : s.run = .waiting) :
    hostTurn s =
      { s with run := if Config.hostWake s.draws then .running else .waiting, draws := s.draws + 1 } := by
  unfold hostTurn deliverWake countDraw
  split <;> simp [*]

end Sys2Proof.Machine
end

