-- ==== Sys2Proof/Tests/Slice0.lean ====
section
/-! SUPPORT. The model's own tests: words written out bit by bit from 30_encoding.md R82 and R89, the checks of WellFormed, the
single-step vectors of 95_test_vectors.md, and a witness for the hypotheses of each statement. -/

open Sys2Proof Sys2Proof.Machine

namespace Sys2Proof.Tests

/-! ### Decoding: one word for every opcode, from the table of R89 and the shapes of R82 -/

theorem test_decode_lda : decodeTableWord 32 0b00000000_00000001_00000000_00100000 = some (.lda 1 0x20) := by decide
theorem test_decode_ldi : decodeTableWord 24 0b00000001_00000001_01100100 = some (.ldi 1 100) := by decide
theorem test_decode_sta : decodeTableWord 32 0b00000010_00000001_00000000_00110000 = some (.sta 1 0x30) := by decide
theorem test_decode_mov : decodeTableWord 16 0b00000011_00010010 = some (.mov 1 2) := by decide
theorem test_decode_add : decodeTableWord 16 0b00000100_00010010 = some (.add 1 2) := by decide
theorem test_decode_addI : decodeTableWord 24 0b00000101_00001110_10000001 = some (.addI 14 0x81) := by decide
theorem test_decode_sub : decodeTableWord 16 0b00000110_11110000 = some (.sub 15 0) := by decide
theorem test_decode_subI : decodeTableWord 24 0b00000111_00000001_00000010 = some (.subI 1 2) := by decide
theorem test_decode_shtL : decodeTableWord 16 0b00001000_00010010 = some (.shtL 1 2) := by decide
theorem test_decode_shtR : decodeTableWord 16 0b00001001_00100011 = some (.shtR 2 3) := by decide
theorem test_decode_hlt : decodeTableWord 8 0b00001010 = some .hlt := by decide
theorem test_decode_jmp : decodeTableWord 24 0b00001011_10000000_00100001 = some (.jmp 0x8021) := by decide
theorem test_decode_cmp : decodeTableWord 16 0b00001100_00110100 = some (.cmp 3 4) := by decide
theorem test_decode_cmpI : decodeTableWord 24 0b00001101_00000011_00000101 = some (.cmpI 3 5) := by decide
theorem test_decode_beq : decodeTableWord 24 0b00001110_00000000_00100000 = some (.beq 0x20) := by decide
theorem test_decode_bne : decodeTableWord 24 0b00001111_00000001_00100000 = some (.bne 0x120) := by decide
theorem test_decode_ble : decodeTableWord 24 0b00010000_00000010_00100000 = some (.ble 0x220) := by decide
theorem test_decode_bge : decodeTableWord 24 0b00010001_00000100_00100000 = some (.bge 0x420) := by decide
theorem test_decode_blt : decodeTableWord 24 0b00010010_00001000_00100000 = some (.blt 0x820) := by decide
theorem test_decode_bgt : decodeTableWord 24 0b00010011_00010000_00100000 = some (.bgt 0x1020) := by decide
theorem test_decode_beqR : decodeTableWord 16 0b00010100_11111011 = some (.beqR (-5)) := by decide
theorem test_decode_bneR : decodeTableWord 16 0b00010101_00000101 = some (.bneR 5) := by decide
theorem test_decode_bleR : decodeTableWord 16 0b00010110_11111011 = some (.bleR (-5)) := by decide
theorem test_decode_bgeR : decodeTableWord 16 0b00010111_11111011 = some (.bgeR (-5)) := by decide
theorem test_decode_bltR : decodeTableWord 16 0b00011000_10000000 = some (.bltR (-128)) := by decide
theorem test_decode_bgtR : decodeTableWord 16 0b00011001_01111111 = some (.bgtR 127) := by decide
theorem test_decode_and : decodeTableWord 16 0b00011010_00010010 = some (.and 1 2) := by decide
theorem test_decode_or : decodeTableWord 16 0b00011011_00010010 = some (.or 1 2) := by decide
theorem test_decode_xor : decodeTableWord 16 0b00011100_00010010 = some (.xor 1 2) := by decide
theorem test_decode_not : decodeTableWord 16 0b00011101_00100011 = some (.not 2 3) := by decide
theorem test_decode_end : decodeTableWord 8 0b00011110 = some .endProgram := by decide
theorem test_decode_in : decodeTableWord 8 0b00011111 = some .input := by decide
theorem test_decode_draw : decodeTableWord 8 0b00100000 = some .draw := by decide
theorem test_decode_out : decodeTableWord 8 0b00100001 = some .out := by decide
theorem test_decode_call : decodeTableWord 24 0b00100010_00000000_00100010 = some (.call 34) := by decide
theorem test_decode_ret : decodeTableWord 8 0b00100011 = some .ret := by decide
theorem test_decode_iniP : decodeTableWord 24 0b00100100_11000000_00000000 = some (.iniP 49152) := by decide
theorem test_decode_setP : decodeTableWord 16 0b00100101_00000001 = some (.setP 1) := by decide
theorem test_decode_getP : decodeTableWord 16 0b00100110_00000010 = some (.getP 2) := by decide
theorem test_decode_updP : decodeTableWord 16 0b00100111_00000011 = some (.updP 3) := by decide
theorem test_decode_upiP : decodeTableWord 16 0b00101000_11111111 = some (.upiP (-1)) := by decide
theorem test_decode_getc : decodeTableWord 8 0b00101001 = some .getc := by decide

/-- Opcode bytes 42 and 255 are no instruction (R90). -/
theorem test_decode_refuses_unassigned :
    decode [42] = .error (.illegalOpcode 42) ∧ decode [255, 0, 0, 0] = .error (.illegalOpcode 255) := ⟨rfl, rfl⟩

/-! ### WellFormed: an ill-formed term for each check -/

theorem test_wellFormed_accepts : wellFormedBytes [0x01, 0x0F, 0xFF] = true := by decide
/-- Opcode byte 42 (R90). -/
theorem test_wellFormed_refuses_opcode : wellFormedBytes [0x2A] = false := by decide
/-- LDI without its immediate byte, and HLT with a byte too many (R88). -/
theorem test_wellFormed_refuses_length : wellFormedBytes [0x01, 0x01] = false ∧ wellFormedBytes [0x0A, 0x00] = false := by
  decide
/-- Vector F3: LDI whose register byte has a non-zero high nibble (R84). -/
theorem test_wellFormed_refuses_nibble : wellFormedBytes [0x01, 0x11, 0x05] = false := by decide

/-! ### The assembler: operand examples of the document and values out of range (R95, R96) -/

theorem test_assembles_ldi : assembleLine [] "LDI R1, #100".toList = some [0x01, 0x01, 0x64] := by decide
theorem test_assembles_negative : assembleLine [] "LDI R1, #-7".toList = some [0x01, 0x01, 0xF9] := by decide
theorem test_assembles_label : assembleLine [("SOMA".toList, 34)] "CALL SOMA".toList = some [0x22, 0x00, 0x22] := by decide
theorem test_assembles_offset : assembleLine [] "BEQ.R -5".toList = some [0x14, 0xFB] := by decide
theorem test_assembler_refuses_register : assembleLine [] "MOV R16, R0".toList = none := by decide
theorem test_assembler_refuses_immediate : assembleLine [] "LDI R1, #256".toList = none := by decide

/-! ### Helpers -/

/-- Bytes stored at an address, PC there. -/
def placed (a : Addr) (bytes : List Byte) (s : State) : State := { pokeBytes bytes a s with pc := a }

/-- The two flags as given. -/
def flags (z c : Bool) (s : State) : State := writeC c (writeZ z s)

/-- The reset machine with two registers written. -/
def regs2 (a : Reg) (v : Byte) (b : Reg) (w : Byte) : State := writeReg a v (writeReg b w State.reset)

/-- The reset machine with other parameters. -/
def withConfig (c : Config) : State := { State.reset with config := c }

/-- The three policies at their non-default values, the little stack order and the branch base `self`. -/
def otherConfig : Config where
  relBranchBase := .self
  stackByteOrder := .little
  romWrite := .ignore
  unmapped := .draw
  uninit := .draw

/-- A field of the next state. -/
def after {α : Type} (f : State → α) (s : State) : Option α :=
  match step s with
  | .next t => some (f t)
  | .fault _ => none
  | .refused _ => none

/-- The fault a step raises. -/
def faultOf (s : State) : Option Fault :=
  match step s with
  | .next _ => none
  | .fault f => some f
  | .refused _ => none

/-- The parameters of the result of an arithmetic, shift or logic step: a register, Z and C. -/
def view (r : Reg) (t : State) : Byte × Bool × Bool := (readReg r t, flagZ t, flagC t)

/-! ### Data transfer: vectors V1 to V10 -/

theorem test_V1 : after (fun t => (readReg 1 t, t.pc)) (placed 0 [0x01, 0x01, 0xF9] State.reset) = some (0xF9, 0x0003) := by
  decide
theorem test_V2 : after (fun t => (readReg 15 t, t.regs, t.pc)) (placed 0 [0x01, 0x0F, 0x05] State.reset) =
    some (0x00, State.reset.regs, 0x0003) := by decide
theorem test_V3 : after (fun t => (readReg 2 t, t.pc)) (placed 0 [0x00, 0x02, 0xC0, 0x05] (poke 0xC005 0x99 State.reset)) =
    some (0x99, 0x0004) := by decide

theorem test_V5 : after (fun t => (peek t 0xC000, t.pc)) (placed 0 [0x02, 0x0F, 0xC0, 0x00] State.reset) =
    some (some 0x00, 0x0004) := by decide
theorem test_V6 : after (fun t => (readReg 1 t, t.pc)) (placed 0 [0x03, 0x1F] (regs2 1 0x77 2 0)) =
    some (0x00, 0x0002) := by decide
theorem test_V8 : faultOf (placed 0 [0x02, 0x01, 0xFF, 0xFA] (regs2 1 1 2 0)) = some (.unmappedAccess 0xFFFA .write) := by
  decide
theorem test_V10 : faultOf (placed 0 [0x00, 0x0F, 0xE0, 0x00] State.reset) = some (.unmappedAccess 0xE000 .read) := by decide

/-! ### Arithmetic: vectors A1 to A13 -/

theorem test_A1 : after (view 1) (placed 0 [0x04, 0x12] (regs2 1 0xFF 2 0x01)) = some (0x00, true, true) := by decide
theorem test_A4 : after (view 15) (placed 0 [0x04, 0xF2] (regs2 1 0x33 2 0x07)) = some (0x00, false, false) := by decide
theorem test_A5 : after (view 1) (placed 0 [0x05, 0x01, 0xFF] (regs2 1 0x05 2 0)) = some (0x04, false, true) := by decide
theorem test_A13 : after (view 1) (placed 0 [0x05, 0x01, 0x00] (flags false true State.reset)) = some (0x00, true, false) := by
  decide
theorem test_A7 : after (view 1) (placed 0 [0x06, 0x12] (regs2 1 0x05 2 0x07)) = some (0xFE, false, true) := by decide
theorem test_A8 : after (view 1) (placed 0 [0x06, 0x11] (regs2 1 0x33 2 0)) = some (0x00, true, false) := by decide
theorem test_A10 : after (view 1) (placed 0 [0x07, 0x01, 0x01] State.reset) = some (0xFF, false, true) := by decide
theorem test_A12 : after (view 1) (placed 0 [0x07, 0x01, 0xFF] (regs2 1 0x05 2 0)) = some (0x06, false, true) := by decide

/-! ### Shifts: vectors H1 to H12 -/

theorem test_H1 : after (view 1) (placed 0 [0x08, 0x12] (flags true true (regs2 1 0x81 2 0x01))) =
    some (0x02, false, true) := by decide
theorem test_H4 : after (view 1) (placed 0 [0x08, 0x12] (regs2 1 0xFF 2 0xFF)) = some (0x00, true, false) := by decide

theorem test_H7 : after (view 1) (placed 0 [0x09, 0x12] (flags true true (regs2 1 0x80 2 0x01))) =
    some (0x40, false, true) := by decide
theorem test_H9 : after (view 1) (placed 0 [0x09, 0x12] (regs2 1 0xFF 2 0x04)) = some (0x0F, false, false) := by decide

/-! ### Compare: vectors C1 to C8 -/

theorem test_C1 : after (view 3) (placed 0 [0x0C, 0x34] (regs2 3 0x05 4 0x09)) = some (0x05, false, true) := by decide
theorem test_C4 : after (view 3) (placed 0 [0x0C, 0x34] (regs2 3 0xFF 4 0x01)) = some (0xFF, false, false) := by decide
theorem test_C5 : after (view 3) (placed 0 [0x0D, 0x03, 0xFF] (regs2 3 0xFE 4 0)) = some (0xFE, false, true) := by decide
theorem test_C6 : after (view 3) (placed 0 [0x0D, 0x03, 0xFF] (regs2 3 0xFF 4 0)) = some (0xFF, true, false) := by decide

/-! ### Branches: the truth table of section 2.5, and vectors J1, B1 to B7 -/

/-- Where an absolute branch to 0x0020 at 0x0100 goes for (Z, C) = 00, 01, 10, 11. -/
def branchRow (op : Byte) : List (Option Addr) :=
  [(false, false), (false, true), (true, false), (true, true)].map fun zc =>
    after State.pc (placed 0x0100 [op, 0x00, 0x20] (flags zc.1 zc.2 State.reset))

/-- Where a relative branch of 5 bytes back at 0x0100 goes for (Z, C) = 00, 01, 10, 11. -/
def branchRelativeRow (op : Byte) : List (Option Addr) :=
  [(false, false), (false, true), (true, false), (true, true)].map fun zc =>
    after State.pc (placed 0x0100 [op, 0xFB] (flags zc.1 zc.2 State.reset))

theorem test_beq : branchRow 0x0E = [some 0x0103, some 0x0103, some 0x0020, some 0x0020] := by decide
theorem test_bne : branchRow 0x0F = [some 0x0020, some 0x0020, some 0x0103, some 0x0103] := by decide
theorem test_ble : branchRow 0x10 = [some 0x0103, some 0x0020, some 0x0020, some 0x0020] := by decide
theorem test_bge : branchRow 0x11 = [some 0x0020, some 0x0103, some 0x0020, some 0x0103] := by decide
theorem test_blt : branchRow 0x12 = [some 0x0103, some 0x0020, some 0x0103, some 0x0020] := by decide
theorem test_bgt : branchRow 0x13 = [some 0x0020, some 0x0103, some 0x0103, some 0x0103] := by decide
theorem test_beqR : branchRelativeRow 0x14 = [some 0x0102, some 0x0102, some 0x00FD, some 0x00FD] := by decide
theorem test_bneR : branchRelativeRow 0x15 = [some 0x00FD, some 0x00FD, some 0x0102, some 0x0102] := by decide
theorem test_bleR : branchRelativeRow 0x16 = [some 0x0102, some 0x00FD, some 0x00FD, some 0x00FD] := by decide
theorem test_bgeR : branchRelativeRow 0x17 = [some 0x00FD, some 0x0102, some 0x00FD, some 0x0102] := by decide
theorem test_bltR : branchRelativeRow 0x18 = [some 0x0102, some 0x00FD, some 0x0102, some 0x00FD] := by decide
theorem test_bgtR : branchRelativeRow 0x19 = [some 0x00FD, some 0x0102, some 0x0102, some 0x0102] := by decide
theorem test_J1 : after State.pc (placed 0 [0x0B, 0xFF, 0xFF] State.reset) = some 0xFFFF := by decide
theorem test_B1_self : after State.pc (placed 0x0100 [0x14, 0xFB] (flags true false (withConfig otherConfig))) =
    some 0x00FB := by decide
theorem test_B2 : after State.pc (placed 0x0001 [0x19, 0xFB] State.reset) = some 0xFFFE := by decide
theorem test_B3 : after State.pc (placed 0xBFF0 [0x15, 0x7F] State.reset) = some 0xC071 := by decide
theorem test_B4 : after State.pc (placed 0x0100 [0x18, 0x80] (flags false true State.reset)) = some 0x0082 := by decide

/-! ### Logic: vectors L1 to L10 -/

theorem test_L1 : after (view 1) (placed 0 [0x1A, 0x12] (flags true true (regs2 1 0xCC 2 0xAA))) =
    some (0x88, false, true) := by decide
theorem test_L7 : after (view 1) (placed 0 [0x1A, 0x1F] (regs2 1 0x5A 2 0)) = some (0x00, true, false) := by decide
theorem test_L2 : after (view 1) (placed 0 [0x1B, 0x12] (flags true true (regs2 1 0xCC 2 0xAA))) =
    some (0xEE, false, true) := by decide
theorem test_L3 : after (view 1) (placed 0 [0x1C, 0x12] (flags true true (regs2 1 0xCC 2 0xAA))) =
    some (0x66, false, true) := by decide
theorem test_L4 : after (fun t => (view 2 t, readReg 3 t)) (placed 0 [0x1D, 0x23] (flags true true (regs2 2 0 3 0x0F))) =
    some ((0xF0, false, true), 0x0F) := by decide
theorem test_L5 : after (view 2) (placed 0 [0x1D, 0x23] (regs2 2 0x44 3 0xFF)) = some (0x00, true, false) := by decide

/-! ### Halt, end, input, output: vectors I1 to I7 -/

/-- I1 and I2, the host's answers given. -/
theorem test_I1 :
    (fun t => (peek t 0xFFFD, peek t 0xFFFE, t.output, t.pc)) (takeInput .int (some (0x01, 0x2A)) State.reset) =
      (some 0x01, some 0x2A, [], 0x0001) := by decide
theorem test_I2 : (fun t => (peek t 0xFFFB, peek t 0xFFFC, t.pc)) (takeInput .char (some (0x01, 0x61)) State.reset) =
    (some 0x01, some 0x61, 0x0001) := by decide
/-- An IN that is not answered: a wait at the instruction, not a final state (R183, R267). -/
theorem test_in_unanswered :
    (fun t => (t.pc, t.run, t.pendingInput, t.mem, isFinal t)) (takeInput .int none State.reset) =
      (0x0000, .running, some .int, [], false) := by
  decide
theorem test_I3 : after (fun t => (t.output, peek t 0xFFFF)) (placed 0 [0x21] (poke 0xFFFF 0xFF State.reset)) =
    some ([(.int, 0xFF)], some 0xFF) := by decide
theorem test_I4 : after State.output (placed 0 [0x20] (poke 0xFFFF 0x41 State.reset)) = some [(.char, 0x41)] := by decide
theorem test_I5 : faultOf (placed 0 [0x21] State.reset) = some (.uninitialisedRead 0xFFFF) := by decide
theorem test_I6 : after (fun t => (t.pc, t.run)) (placed 0x0010 [0x0A] State.reset) = some (0x0011, .waiting) := by decide
theorem test_I6_wake : deliverWake { State.reset with run := .waiting } = State.reset := by decide
theorem test_I7 : after (fun t => (t.pc, t.run)) (placed 0x0012 [0x1E] State.reset) = some (0x0013, .ended) := by decide

/-! ### Subroutines: vectors K1 to K6 -/

theorem test_K1 :
    after (fun t => (peek t 0xDFFF, peek t 0xDFFE, t.sp, t.pc)) (placed 0x0003 [0x22, 0x00, 0x22] State.reset) =
      some (some 0x06, some 0x00, 0xDFFE, 0x0022) ∧
    after (fun t => (peek t 0xDFFF, peek t 0xDFFE)) (placed 0x0003 [0x22, 0x00, 0x22] (withConfig otherConfig)) =
      some (some 0x00, some 0x06) := by decide
theorem test_K2 : after (fun t => (t.pc, t.sp, peek t 0xDFFE, peek t 0xDFFF))
    (placed 0x0022 [0x23] (pokeBytes [0x00, 0x06] 0xDFFE (regs2 1 0 2 0) |> fun s => { s with sp := 0xDFFE })) =
    some (0x0006, 0xE000, some 0x00, some 0x06) := by decide

theorem test_K5 : faultOf (placed 0x0003 [0x22, 0x00, 0x22] { State.reset with sp := 0xC001 }) = some (.romWrite 0xBFFF 0x00) := by
  decide
theorem test_K6 : faultOf (placed 0 [0x23] State.reset) = some (.unmappedAccess 0xE000 .read) := by decide

/-! ### Pointer: vectors G1 to G10 -/

theorem test_G2 : after State.gp (placed 0 [0x27, 0x03] { regs2 3 0x80 1 0 with gp := 0xC010 }) = some 0xBF90 := by decide
theorem test_G3 : after State.gp (placed 0 [0x27, 0x03] { regs2 3 0x7F 1 0 with gp := 0xC010 }) = some 0xC08F := by decide
theorem test_G4 : after State.gp (placed 0 [0x28, 0xFF] { State.reset with gp := 0x0000 }) = some 0xFFFF := by decide
theorem test_G5 : after State.gp (placed 0 [0x28, 0x7F] { State.reset with gp := 0xFFFF }) = some 0x007E := by decide
theorem test_G6 : faultOf (placed 0 [0x25, 0x01] { regs2 1 0x09 2 0 with gp := 0x0000 }) = some (.romWrite 0x0000 0x09) := by
  decide
theorem test_G7 : after (fun t => (readReg 2 t, t.pc)) (placed 0 [0x26, 0x02, 0x77] { State.reset with gp := 0x0002 }) =
    some (0x77, 0x0002) := by decide
theorem test_G8 : after (fun t => (t.gp, t.pc)) (placed 0 [0x24, 0xFF, 0xFF] State.reset) = some (0xFFFF, 0x0003) := by decide
theorem test_G9 : after (fun t => peek t 0xC000) (placed 0 [0x25, 0x0F] State.reset) = some (some 0x00) := by decide
theorem test_G10 : faultOf (placed 0 [0x26, 0x0F] { State.reset with gp := 0xE000 }) = some (.unmappedAccess 0xE000 .read) := by
  decide

/-! ### Decode faults: vectors F1 to F9, but F4 and F5 (log entry 1) -/

theorem test_F2 : faultOf (placed 0 [0x2A] State.reset) = some (.illegalOpcode 0x0000 0x2A) := by decide
theorem test_F3 : faultOf (placed 0 [0x01, 0x11, 0x05] State.reset) = some (.reservedRegisterByte 0x0000 0x11) := by decide
theorem test_F6 : faultOf { State.reset with pc := 0xC000 } = some (.uninitialisedRead 0xC000) := by decide
theorem test_F8 : faultOf (placed 0 [0x01, 0x01] State.reset) = some (.uninitialisedRead 0x0002) := by decide
theorem test_F9 : faultOf { State.reset with pc := 0xE000 } = some (.unmappedAccess 0xE000 .fetch) := by decide

/-- A word placed by the host's interface is the first instruction that runs (log entry 13). -/
theorem test_withFetchWord : after (fun t => (readReg 1 t, t.pc)) (State.reset.withFetchWord 24 0x010164) = some (100, 3) := by
  decide

/-- An STA takes four cycles (R265). -/
theorem test_cycles : stepCycles (placed 0 [0x02, 0x01, 0xC0, 0x00] State.reset) = 4 := by decide

/-! ### Witnesses: a state and operands that meet the hypotheses of each statement, clause by clause -/

/-- MOV R1, R2 at 0x0000. -/
def movState : State := placed 0 [0x03, 0x12] (regs2 1 0x11 2 0x22)

/-- CALL 0xC100 across the top of the address space: its last byte at 0x0000. -/
def wrapState : State := placed 0xFFFE [0x22, 0xC1, 0x00] State.reset

/-- The reset machine under the other parameters. -/
def openState : State := withConfig otherConfig

theorem witness_AcceptedBytesAreTheEncoding : decode [0x03, 0x12, 0x77] = .ok (.mov 1 2, [0x77]) := rfl

/-- Both ends of each operand's range, one format after another. -/
theorem witness_AssembledBytesDecode :
    assemble [] .ldi [.reg 15, .imm (-128)] = some [0x01, 0x0F, 0x80] ∧
    assemble [] .cmpI [.reg 0, .imm 255] = some [0x0D, 0x00, 0xFF] ∧
    assemble [] .ldi [.reg 1, .char 127] = some [0x01, 0x01, 0x7F] ∧
    assemble [] .jmp [.decAddr 65535] = some [0x0B, 0xFF, 0xFF] ∧
    assemble [(['F'], 0x0022)] .lda [.reg 2, .label ['F']] = some [0x00, 0x02, 0x00, 0x22] ∧
    assemble [] .mov [.reg 1, .reg 2] = some [0x03, 0x12] ∧ assemble [] .updP [.reg 3] = some [0x27, 0x03] ∧
    assemble [] .beqR [.bare (-5)] = some [0x14, 0xFB] ∧ assemble [] .hlt [] = some [0x0A] := by decide

/-- Just outside each operand's range. -/
theorem test_assembler_ranges :
    assemble [] .updP [.reg 16] = none ∧ assemble [] .ldi [.reg 0, .imm (-129)] = none ∧
    assemble [] .ldi [.reg 0, .bare 256] = none ∧ assemble [] .ldi [.reg 0, .char 128] = none ∧
    assemble [] .jmp [.hexAddr 65536] = none ∧ assemble [] .jmp [.label ['F']] = none := by decide

theorem witness_StepRunsTheDecodedInstruction :
    (wrapState.run = .running ∧ wrapState.pendingInput = none) ∧ decode [0x22, 0xC1, 0x00] = .ok (.call 0xC100, []) ∧ CodeAt wrapState [0x22, 0xC1, 0x00] ∧
    [(0x22 : Byte), 0xC1, 0x00].getLast? = some 0x00 := by
  refine ⟨⟨rfl, rfl⟩, rfl, fun k v h => ?_, rfl⟩
  rcases k with _ | _ | _ | k <;> simp at h <;> subst h <;> decide

theorem witness_FetchChangesOnlyHiddenState : ∃ t, fetch movState = .ok (.mov 1 2, t) := ⟨_, rfl⟩

/-- The premises on the run of the statements about fetching. -/
theorem witness_fetching : State.reset.run = .running ∧ State.reset.pendingInput = none ∧ State.reset.config.uninit = .fault :=
  ⟨rfl, rfl, rfl⟩

/-- Clause 1, at the ends of the three storage ranges. -/
theorem witness_OpcodeByteFaultsComeFirst_unwritten :
    ([0x0000, 0xBFFF, 0xC000, 0xDFFF, 0xFFFB, (0xFFFF : Addr)].all fun pc =>
      (regionOf pc).isStorage && (peek { State.reset with pc := pc } pc).isNone) = true := by decide

/-- Clause 2, at the ends of the range without a device. -/
theorem witness_OpcodeByteFaultsComeFirst_unmapped :
    (regionOf 0xE000).isStorage = false ∧ (regionOf 0xFFFA).isStorage = false ∧ State.reset.config.unmapped = .fault := by
  decide

/-- Clause 3, at the ends of the unassigned opcodes. -/
theorem witness_OpcodeByteFaultsComeFirst_illegal :
    ReadsAs (placed 0 [42] State.reset) 0 42 0 ∧ ReadsAs (placed 0 [255] State.reset) 0 255 0 :=
  ⟨.inl (by decide), .inl (by decide)⟩

/-- Clause 1: the second byte unwritten, the third unwritten behind a register byte of 0x11, the second without a device. -/
theorem witness_ReservedRegisterByteFaults_operands :
    (ReadsAs (placed 0 [0x01] State.reset) 0 Opcode.ldi.byte 0 ∧
      AccessFaults .fetch (placed 0 [0x01] State.reset) (0 + 1) (.uninitialisedRead 0x0001)) ∧
    (ReadsAs (placed 0 [0x01, 0x11] State.reset) 0 Opcode.ldi.byte 0 ∧
      (∀ j, 1 ≤ j → j < 2 → ∃ v n, ReadsAs (placed 0 [0x01, 0x11] State.reset) (0 + BitVec.ofNat 16 j) v n) ∧
      AccessFaults .fetch (placed 0 [0x01, 0x11] State.reset) (0 + 2) (.uninitialisedRead 0x0002)) ∧
    (ReadsAs (placed 0xDFFF [0x14] State.reset) 0xDFFF Opcode.beqR.byte 0 ∧
      AccessFaults .fetch (placed 0xDFFF [0x14] State.reset) (0xDFFF + 1) (.unmappedAccess 0xE000 .fetch)) := by
  refine ⟨⟨.inl ⟨rfl, rfl, rfl⟩, .inl ⟨rfl, rfl, rfl, rfl⟩⟩, ⟨.inl ⟨rfl, rfl, rfl⟩, fun j h1 h2 => ?_, .inl ⟨rfl, rfl, rfl, rfl⟩⟩,
    .inl ⟨rfl, rfl, rfl⟩, .inr ⟨rfl, rfl, rfl⟩⟩
  obtain rfl : j = 1 := by omega
  exact ⟨0x11, 0, .inl ⟨rfl, rfl, rfl⟩⟩

/-- Clause 2: the register bytes 0x10 and 0xFF. -/
theorem witness_ReservedRegisterByteFaults :
    Opcode.ldi.format.hasRegisterByte = true ∧ [Opcode.ldi.byte, 0x10, 0x05].length = Opcode.ldi.format.length ∧
    CodeAt (placed 0 [0x01, 0x10, 0x05] State.reset) [Opcode.ldi.byte, 0x10, 0x05] ∧
    CodeAt (placed 0 [0x25, 0xFF] State.reset) [Opcode.setP.byte, 0xFF] := by
  refine ⟨rfl, rfl, fun k v h => ?_, fun k v h => ?_⟩
  · rcases k with _ | _ | _ | k <;> simp at h <;> subst h <;> decide
  · rcases k with _ | _ | k <;> simp at h <;> subst h <;> decide

theorem witness_FaultChangesOnlyRun : step State.reset = .fault (.uninitialisedRead 0x0000) := rfl

theorem witness_ExecFaultsNameTheirCause :
    exec (.lda 15 0xE000) State.reset = .fault (.unmappedAccess 0xE000 .read) ∧
    exec (.sta 1 0xFFFA) State.reset = .fault (.unmappedAccess 0xFFFA .write) ∧
    exec (.sta 1 0xBFFF) State.reset = .fault (.romWrite 0xBFFF 0x00) ∧
    exec .out State.reset = .fault (.uninitialisedRead 0xFFFF) := ⟨rfl, rfl, rfl, rfl⟩

theorem witness_PermissiveMachineRaisesDecodeFaultsOnly :
    permissive openState.config ∧ openState.run = .running ∧
    step (placed 0 [0x2A] openState) = .fault (.illegalOpcode 0 0x2A) ∧
    step (placed 0 [0x25, 0x10] openState) = .fault (.reservedRegisterByte 0 0x10) := ⟨⟨rfl, rfl, rfl⟩, rfl, rfl, rfl⟩

theorem witness_WakeOnlyResumesRunning :
    { State.reset with run := .waiting }.run = RunState.waiting ∧ State.reset.run ≠ .waiting := by decide

theorem witness_EndedMachineTakesNoStep : { State.reset with run := .ended }.run = RunState.ended := rfl

theorem witness_RunStateWriters :
    (∃ t, exec .hlt State.reset = .next t) ∧ (∃ t, exec .endProgram State.reset = .next t) ∧
    (∃ t, exec .input State.reset = .next t) ∧ (∃ t, exec .getc State.reset = .next t) ∧
    ∃ t, exec (.mov 1 2) State.reset = .next t := ⟨⟨_, rfl⟩, ⟨_, rfl⟩, ⟨_, rfl⟩, ⟨_, rfl⟩, ⟨_, rfl⟩⟩

theorem witness_OutputLogOnlyGrows :
    (∃ t, exec (.mov 1 2) State.reset = .next t) ∧ (∃ t, step movState = .next t) ∧
    ∃ t, step (placed 0 [0x21] (poke 0xFFFF 0x07 State.reset)) = .next t := ⟨⟨_, rfl⟩, ⟨_, rfl⟩, ⟨_, rfl⟩⟩

/-- A running machine with code in ROM, one in a HLT, and one inside an unanswered IN. -/
theorem witness_EveryStepKeepsTheInvariant :
    (MachineInv movState ∧ ∃ t, step movState = .next t) ∧
    (MachineInv { movState with run := .waiting } ∧ ∃ t, step { movState with run := .waiting } = .next t) ∧
    MachineInv { movState with pendingInput := some .int } ∧ ∃ t, step { movState with pendingInput := some .int } = .next t :=
  ⟨⟨⟨by decide, by unfold storageOnly; decide, by unfold reservedStatusZero; decide, by unfold waitsForInputRunning; decide⟩, ⟨_, rfl⟩⟩,
    ⟨⟨by decide, by unfold storageOnly; decide, by unfold reservedStatusZero; decide, by unfold waitsForInputRunning; decide⟩, ⟨_, rfl⟩⟩,
    ⟨by decide, by unfold storageOnly; decide, by unfold reservedStatusZero; decide, by unfold waitsForInputRunning; decide⟩, ⟨_, rfl⟩⟩

theorem witness_RomAndParametersNeverChange :
    (∃ t, step movState = .next t) ∧ regionOf 0x0000 = .rom ∧ regionOf 0xBFFF = .rom := ⟨⟨_, rfl⟩, by decide⟩

theorem witness_FlagWriters :
    (∃ t, exec (.add 1 2) State.reset = .next t) ∧
    (writesBothFlags .and = false ∧ ∃ t, exec (.and 1 2) State.reset = .next t) ∧
    writesBothFlags .mov = false ∧ writesOnlyZ .mov = false ∧ ∃ t, exec (.mov 1 2) State.reset = .next t :=
  ⟨⟨_, rfl⟩, ⟨rfl, ⟨_, rfl⟩⟩, rfl, rfl, ⟨_, rfl⟩⟩

theorem witness_PointerRegisterWriters :
    (∃ t, exec (.call 0x0022) State.reset = .next t) ∧
    (∃ t, exec .ret (pokeBytes [0x00, 0x06] 0xDFFE { State.reset with sp := 0xDFFE }) = .next t) ∧
    ∃ t, exec (.mov 1 2) State.reset = .next t := ⟨⟨_, rfl⟩, ⟨_, rfl⟩, ⟨_, rfl⟩⟩

theorem witness_StoresOnlyWhereListed :
    (∃ t, exec (.sta 1 0xC000) State.reset = .next t) ∧ (∃ t, exec .input State.reset = .next t) ∧
    ∃ t, exec (.mov 1 2) State.reset = .next t := ⟨⟨_, rfl⟩, ⟨_, rfl⟩, ⟨_, rfl⟩⟩

theorem witness_OnlyTheDestinationIsWritten :
    (∃ t, exec (.mov 1 2) State.reset = .next t) ∧ destination (.mov 1 2) ≠ some 14 ∧
    (∃ t, exec (.mov 15 2) State.reset = .next t) ∧ destination (.cmp 1 2) ≠ some 1 :=
  ⟨⟨_, rfl⟩, by decide, ⟨_, rfl⟩, by decide⟩

theorem witness_PcAdvancesByTheLength :
    (∃ t, exec (.sta 1 0xC000) State.reset = .next t) ∧ transfersControl .sta = false := ⟨⟨_, rfl⟩, rfl⟩

/-- An image with bytes at both ends of ROM, and one beyond it that loading leaves out. -/
theorem witness_BootedRomReadsAsTheImage : Memory.wf [(0x0000, 0x1E), (0xBFFF, 0x23), (0xC000, 0x01)] := by decide

/-- The first and last address of each region. -/
theorem witness_MemoryMapBounds :
    [0x0000, 0xBFFF, 0xC000, 0xDFFF, 0xE000, 0xFFBF, 0xFFC0, 0xFFFA, 0xFFFB, (0xFFFF : Addr)].map regionOf =
      [.rom, .rom, .ram, .ram, .expansion, .expansion, .undocumentedIo, .undocumentedIo, .mailbox, .mailbox] := by decide

/-- The ends of RAM and of the mailboxes. -/
theorem witness_WrittenByteIsReadBack :
    Writable 0xC000 ∧ Writable 0xDFFF ∧ Writable 0xFFFB ∧ Writable 0xFFFF := ⟨.inl rfl, .inl rfl, .inr rfl, .inr rfl⟩

/-- Each clause's range at its ends, under both choices of each parameter. -/
theorem witness_AccessesFollowTheParameters :
    ((0xBFFF : Addr).toNat ≤ 0xBFFF ∧ (0xE000 ≤ (0xE000 : Addr).toNat ∧ (0xFFFA : Addr).toNat ≤ 0xFFFA) ∧
      (0xDFFF : Addr).toNat ≤ 0xDFFF ∧ 0xFFFB ≤ (0xFFFB : Addr).toNat) ∧
    (State.reset.config.romWrite = .fault ∧ State.reset.config.unmapped = .fault ∧ State.reset.config.uninit = .fault ∧
      peek State.reset 0xDFFF = none) ∧
    openState.config.romWrite = .ignore ∧ openState.config.unmapped = .draw ∧ openState.config.uninit = .draw ∧
    peek openState 0xFFFB = none := by decide

theorem witness_PushThenPopReturnsTheValue :
    (Writable (State.reset.sp - 1) ∧ Writable (State.reset.sp - 2)) ∧ State.reset.config.stackByteOrder = .big ∧
    openState.config.stackByteOrder = .little := ⟨⟨.inl rfl, .inl rfl⟩, rfl, rfl⟩

theorem witness_RelativeTargetLaw :
    State.reset.config.relBranchBase = .next ∧ openState.config.relBranchBase = .self := ⟨rfl, rfl⟩

/-- A stored byte, an unwritten one and an unmapped one, for LDA and for GET.P. -/
theorem witness_LoadsReadTheirAddress :
    ReadsAs (poke 0xDFFF 0x99 State.reset) 0xDFFF 0x99 0 ∧
    ReadsAs openState 0xC000 (Config.initialByte 0xC000) 0 ∧
    ReadsAs openState 0xE000 (Config.unmappedByte 0) 1 ∧
    ReadsAs (poke 0xC000 0x99 State.reset) (poke 0xC000 0x99 State.reset).gp 0x99 0 :=
  ⟨.inl ⟨rfl, rfl, rfl⟩, .inr (.inl ⟨rfl, rfl, rfl, rfl, rfl⟩), .inr (.inr ⟨rfl, rfl, rfl, rfl⟩), .inl ⟨rfl, rfl, rfl⟩⟩

theorem witness_StoresWriteTheirAddress :
    Writable 0xDFFF ∧ WriteDropped openState 0xBFFF ∧ WriteDropped openState 0xFFFA ∧ Writable State.reset.gp :=
  ⟨.inl rfl, .inl ⟨rfl, rfl⟩, .inr ⟨rfl, rfl⟩, .inl rfl⟩

theorem witness_LoadsAndStoresStopOnAccessFaults :
    ReadFaults State.reset 0xDFFF (.uninitialisedRead 0xDFFF) ∧ ReadFaults State.reset 0xE000 (.unmappedAccess 0xE000 .read) ∧
    ReadFaults State.reset State.reset.gp (.uninitialisedRead 0xC000) ∧
    ReadFaults State.reset 0xFFFF (.uninitialisedRead 0xFFFF) ∧
    WriteFaults State.reset 0xBFFF (readReg 1 State.reset) (.romWrite 0xBFFF 0x00) ∧
    WriteFaults State.reset 0xFFFA (readReg 1 State.reset) (.unmappedAccess 0xFFFA .write) ∧
    WriteFaults { State.reset with gp := 0x0000 } 0x0000 0x00 (.romWrite 0x0000 0x00) :=
  ⟨.inl ⟨rfl, rfl, rfl, rfl⟩, .inr ⟨rfl, rfl, rfl⟩, .inl ⟨rfl, rfl, rfl, rfl⟩, .inl ⟨rfl, rfl, rfl, rfl⟩, .inl ⟨rfl, rfl, rfl⟩,
    .inr ⟨rfl, rfl, rfl⟩, .inl ⟨rfl, rfl, rfl⟩⟩

/-- Both flags set and both clear: each of the six conditions both ways. -/
theorem witness_AbsoluteBranchesFollowTheirCondition :
    (flagZ (flags true true State.reset) = true ∧ flagC (flags true true State.reset) = true) ∧
    flagZ (flags false false State.reset) = false ∧ flagC (flags false false State.reset) = false := by decide

theorem witness_RelativeBranchesFollowTheirCondition :
    ((0xFFFB : Addr) = (if State.reset.config.relBranchBase = .next then State.reset.pc + 2 else State.reset.pc) +
      BitVec.signExtend 16 (0xF9 : Byte)) ∧
    (0x007F : Addr) = (if openState.config.relBranchBase = .next then openState.pc + 2 else openState.pc) +
      BitVec.signExtend 16 (0x7F : Byte) := by decide

/-- The machine inside an unanswered IN, and inside an unanswered GETC. -/
theorem witness_InputFillsItsMailbox :
    (fun t => (t.run, t.pendingInput)) (takeInput .int none State.reset) = (.running, some .int) ∧
    (fun t => (t.run, t.pendingInput)) (takeInput .char none State.reset) = (.running, some .char) := ⟨rfl, rfl⟩

theorem witness_OutputHandsOverTheByte :
    peek (poke 0xFFFF 0x41 State.reset) 0xFFFF = some 0x41 ∧ peek openState 0xFFFF = none ∧ openState.config.uninit = .draw := by
  decide

/-- The stack in RAM, across the bottom of RAM under `ROM_WRITE = ignore`, and both byte orders. -/
theorem witness_CallSavesTheReturnAddress :
    ((0x03, 0x00) = returnBytes State.reset ∧ Writable (State.reset.sp - 1) ∧ Writable (State.reset.sp - 2)) ∧
    (0x00, 0x03) = returnBytes { openState with sp := 0xC001 } ∧
    Writable ({ openState with sp := 0xC001 }.sp - 1) ∧
    WriteDropped { openState with sp := 0xC001 } ({ openState with sp := 0xC001 }.sp - 2) :=
  ⟨⟨rfl, .inl rfl, .inl rfl⟩, rfl, .inl rfl, .inl ⟨rfl, rfl⟩⟩

/-- The first and the second write, the first and the second read. -/
theorem witness_SubroutinesStopOnStackFaults :
    WriteFaults { State.reset with sp := 0xC000 } 0xBFFF 0x03 (.romWrite 0xBFFF 0x03) ∧
    (Writable ((0xC001 : Addr) - 1) ∧ WriteFaults { State.reset with sp := 0xC001 } 0xBFFF 0x00 (.romWrite 0xBFFF 0x00)) ∧
    ReadFaults State.reset State.reset.sp (.unmappedAccess 0xE000 .read) ∧
    ReadsAs (poke 0xDFFF 0x06 { State.reset with sp := 0xDFFF }) 0xDFFF 0x06 0 ∧
    ReadFaults (poke 0xDFFF 0x06 { State.reset with sp := 0xDFFF }) (0xDFFF + 1) (.unmappedAccess 0xE000 .read) :=
  ⟨.inl ⟨rfl, rfl, rfl⟩, ⟨.inl rfl, .inl ⟨rfl, rfl, rfl⟩⟩, .inr ⟨rfl, rfl, rfl⟩, .inl ⟨rfl, rfl, rfl⟩, .inr ⟨rfl, rfl, rfl⟩⟩

/-- Two stored bytes, and two free ones under `UNMAPPED_ACCESS = draw`. -/
theorem witness_ReturnRestoresThePc :
    (ReadsAs (pokeBytes [0x00, 0x06] 0xDFFE { State.reset with sp := 0xDFFE }) 0xDFFE 0x00 0 ∧
      ReadsAs (pokeBytes [0x00, 0x06] 0xDFFE { State.reset with sp := 0xDFFE }) (0xDFFE + 1) 0x06 0) ∧
    ReadsAs openState openState.sp (Config.unmappedByte 0) 1 ∧
    ReadsAs { openState with draws := openState.draws + 1 } (openState.sp + 1) (Config.unmappedByte 1) 1 :=
  ⟨⟨.inl ⟨rfl, rfl, rfl⟩, .inl ⟨rfl, rfl, rfl⟩⟩, .inr (.inr ⟨rfl, rfl, rfl, rfl⟩), .inr (.inr ⟨rfl, rfl, rfl, rfl⟩)⟩

/-- The deepest and the highest pair of RAM bytes. -/
theorem witness_CallThenReturnComesBack :
    (Writable (State.reset.sp - 1) ∧ Writable (State.reset.sp - 2)) ∧ Writable ((0xC002 : Addr) - 1) ∧ Writable ((0xC002 : Addr) - 2) :=
  ⟨⟨.inl rfl, .inl rfl⟩, .inl rfl, .inl rfl⟩

end Sys2Proof.Tests
end

section
/-! The memory map (20_memory.md R51, R55): each region is the interval between its first and its last address. -/

namespace Sys2Proof.Machine

/-- The first address of a region. -/
def Region.first : Region → Nat
  | .rom => 0x0000
  | .ram => 0xC000
  | .expansion => 0xE000
  | .undocumentedIo => 0xFFC0
  | .mailbox => 0xFFFB

/-- The last address of a region. -/
def Region.last : Region → Nat
  | .rom => 0xBFFF
  | .ram => 0xDFFF
  | .expansion => 0xFFBF
  | .undocumentedIo => 0xFFFA
  | .mailbox => 0xFFFF

theorem regionOf_bounds (a : Addr) : (regionOf a).first ≤ a.toNat ∧ a.toNat ≤ (regionOf a).last := by
  have hlt : a.toNat < 0x10000 := a.isLt
  obtain ⟨hr, _⟩ | ⟨hr, _⟩ | ⟨hr, _⟩ | ⟨hr, _⟩ | ⟨hr, _⟩ := regionOf_cases a <;>
    simp only [hr, Region.first, Region.last] <;> omega

/-- R51: the ranges are disjoint. -/
theorem Region.eq_of_mem_both {r q : Region} {n : Nat} (hr : r.first ≤ n ∧ n ≤ r.last) (hq : q.first ≤ n ∧ n ≤ q.last) :
    r = q := by
  cases r <;> cases q <;> simp [Region.first, Region.last] at hr hq ⊢ <;> omega

/-- The map is determined by the bounds, since the ranges cover every address and are disjoint. -/
theorem regionOf_eq_iff (a : Addr) (r : Region) : regionOf a = r ↔ r.first ≤ a.toNat ∧ a.toNat ≤ r.last :=
  ⟨fun h => h ▸ regionOf_bounds a, Region.eq_of_mem_both (regionOf_bounds a)⟩

/-- Settles O30: each region is the interval that `regionOf_eq_iff` says, and reset starts at the first of them. -/
theorem memoryMapBounds : Obligations.MemoryMapBounds := by
  intro a
  have hlt : a.toNat < 0x10000 := a.isLt
  refine ⟨?rom, regionOf_eq_iff a .ram, regionOf_eq_iff a .expansion, ?io, regionOf_eq_iff a .undocumentedIo, ?mailbox,
    rfl, (regionOf_eq_iff 0x0000 .rom).mpr (by decide)⟩
  all_goals
    simp only [regionOf_eq_iff, Region.first, Region.last]
    omega

end Sys2Proof.Machine
end

section
/-! The two results of the arithmetic unit (41_arithmetic_shift.md R120, R121), in byte and in natural-number arithmetic. -/

namespace Sys2Proof.Machine

@[simp] theorem add8_value (a b : Byte) : (add8 a b).value = a + b := rfl

theorem add8_zero_iff (a b : Byte) : (add8 a b).zero = true ↔ (add8 a b).value = 0 := beq_iff_eq

theorem add8_carry_iff (a b : Byte) : (add8 a b).carry = true ↔ 255 < a.toNat + b.toNat := decide_eq_true_iff

@[simp] theorem sub8_value (a b : Byte) : (sub8 a b).value = a - b := rfl

theorem sub8_zero_iff (a b : Byte) : (sub8 a b).zero = true ↔ (sub8 a b).value = 0 := beq_iff_eq

theorem sub8_carry_iff (a b : Byte) : (sub8 a b).carry = true ↔ a.toNat < b.toNat := decide_eq_true_iff

/-- The value is the exact sum modulo 256. -/
theorem add8_value_toNat (a b : Byte) : (add8 a b).value.toNat = (a.toNat + b.toNat) % 256 := BitVec.toNat_ofNat ..

/-- Without a borrow the value is the exact difference, with one it is 256 more. -/
theorem sub8_value_toNat (a b : Byte) :
    (sub8 a b).value.toNat = if b.toNat ≤ a.toNat then a.toNat - b.toNat else a.toNat + 256 - b.toNat := by
  rw [sub8_value]
  split
  case isTrue hle => exact BitVec.toNat_sub_of_le hle
  case isFalse hlt => rw [BitVec.toNat_sub_of_lt (Nat.lt_of_not_le hlt)]; omega

/-- Settles O34: value, Z and C of the exact sum. -/
theorem additionLaw : Obligations.AdditionLaw := by
  intro a b
  refine ⟨add8_value_toNat a b, add8_value a b, ?zero, add8_carry_iff a b⟩
  case zero => rw [add8_zero_iff, ← add8_value_toNat]; exact BitVec.toNat_eq

/-- Settles O35: value, Z and C of the difference; a byte difference vanishes only between equal bytes. -/
theorem subtractionLaw : Obligations.SubtractionLaw := by
  intro a b
  refine ⟨sub8_value_toNat a b, ?equal, sub8_zero_iff a b, sub8_carry_iff a b⟩
  case equal => rw [sub8_zero_iff, sub8_value]; exact sub_eq_zero

end Sys2Proof.Machine
end

section
/-! JMP and the target of a relative branch (42_jump_compare_branch.md R140, R149): a target in bit-vector arithmetic is
carried over to integers modulo 2^16 once for every base (`toNat_add_sext16`), the base being a matter of
REL_BRANCH_BASE. -/

namespace Sys2Proof.Machine

/-- R9: adding a sign-extended byte to an address adds the signed byte, modulo 2^16. -/
theorem toNat_add_sext16 (a : Addr) (v : Byte) :
    ((a + sext16 v).toNat : Int) = ((a.toNat : Int) + v.toInt) % 65536 := by
  have hoffset : ((sext16 v).toNat : Int) = v.toInt % 65536 := by
    rw [sext16, BitVec.signExtend, BitVec.toNat_ofInt]
    exact Int.toNat_of_nonneg (Int.emod_nonneg _ (by decide))
  rw [BitVec.toNat_add, Int.natCast_emod, Int.natCast_add, hoffset]
  exact Int.add_emod_emod ..

theorem toNat_nextPc (f : Format) (s : State) : (nextPc f s).toNat = (s.pc.toNat + f.length) % 65536 := by
  simp [nextPc, BitVec.toNat_add]

theorem relativeBase_of_next {s : State} (h : s.config.relBranchBase = .next) : relativeBase s = nextPc .fi s := by
  simp [relativeBase, h]

theorem relativeBase_of_self {s : State} (h : s.config.relBranchBase = .self) : relativeBase s = s.pc := by
  simp [relativeBase, h]

/-- Whatever the base is, the target is the base plus the signed offset. -/
theorem relativeTarget_toNat (off : Byte) (s : State) :
    ((relativeTarget off s).toNat : Int) = (((relativeBase s).toNat : Int) + off.toInt) % 65536 :=
  toNat_add_sext16 (relativeBase s) off

/-- Settles O38: `relativeTarget_toNat` at each of the two bases; a base that wraps past 2^16 gives the same residue. -/
theorem relativeTargetLaw : Obligations.RelativeTargetLaw := by
  intro off s
  refine ⟨fun hnext => ?next, fun hself => ?self⟩
  case next =>
    have hbase : (nextPc .fi s).toNat = (s.pc.toNat + 2) % 65536 := toNat_nextPc .fi s
    rw [relativeTarget_toNat, relativeBase_of_next hnext, hbase]
    push_cast
    exact Int.emod_add_emod ..
  case self => rw [relativeTarget_toNat, relativeBase_of_self hself]

/-- R82, R89: the address follows the opcode byte, its high byte first. -/
theorem encode_jmp (addr : Addr) : encode (.jmp addr) = [0x0B, hiByte addr, loByte addr] := rfl

/-- R140: `pc <- addr`, in every state. -/
theorem exec_jmp (addr : Addr) (s : State) : exec (.jmp addr) s = .next { s with pc := addr } := rfl

/-- Settles O49: JMP's bytes and its effect. -/
theorem jumpGoesToItsAddress : Obligations.JumpGoesToItsAddress :=
  fun addr s => ⟨encode_jmp addr, exec_jmp addr s⟩

end Sys2Proof.Machine
end

section
/-! INI.P and the pointer at reset (46_pointer.md R210): GP starts at the start of RAM, the first address of its region. -/

namespace Sys2Proof.Machine

/-- R82, R89: the address follows the opcode byte, its high byte first. -/
theorem encode_iniP (addr : Addr) : encode (.iniP addr) = [0x24, hiByte addr, loByte addr] := rfl

/-- R210: `GP <- addr`; every other field but PC stays. -/
theorem exec_iniP (addr : Addr) (s : State) :
    exec (.iniP addr) s = .next { s with gp := addr, pc := s.pc + 3 } := rfl

/-- R210: without any INI.P, GP is the first address of RAM. -/
theorem reset_gp_toNat : State.reset.gp.toNat = Region.ram.first := rfl

theorem regionOf_reset_gp : regionOf State.reset.gp = .ram :=
  (regionOf_eq_iff _ .ram).mpr ⟨reset_gp_toNat.ge, by decide⟩

/-- RAM starts at GP and not before it: the address below ends ROM. -/
theorem regionOf_reset_gp_pred : regionOf (State.reset.gp - 1) = .rom :=
  (regionOf_eq_iff _ .rom).mpr (by decide)

/-- Settles O59: INI.P's bytes and its effect, and GP at reset as RAM's first address. -/
theorem initPointerSetsGp : Obligations.InitPointerSetsGp :=
  ⟨fun addr s => ⟨encode_iniP addr, exec_iniP addr s⟩, rfl, regionOf_reset_gp, regionOf_reset_gp_pred⟩

end Sys2Proof.Machine
end

section
/-! The encoding by formats (30_encoding.md R82 to R89): an instruction is an opcode with the operands of its format, so
that what the decoder, the rules of WellFormed and the assembler do is said once for each of the seven formats. -/

namespace Sys2Proof

/-- The operands that an instruction of the format has (R82). -/
def Format.Operands : Format → Type
  | .f0 => Unit
  | .fi => Byte
  | .fa => Addr
  | .frr => Reg × Reg
  | .fri => Reg × Byte
  | .fra => Reg × Addr
  | .fr => Reg

/-- The bytes of the operands of a format (R82 to R87). -/
def Format.operandBytes : (f : Format) → f.Operands → List Byte
  | .f0, _ => []
  | .fi, v => [v]
  | .fa, a => addressBytes a
  | .frr, x => [registerPairByte x.1 x.2]
  | .fri, x => [registerByte x.1, x.2]
  | .fra, x => registerByte x.1 :: addressBytes x.2
  | .fr, r => [registerByte r]

/-- The instruction of an opcode and its operands (R89). -/
def Opcode.instr : (op : Opcode) → op.format.Operands → Instr
  | .lda, x => .lda x.1 x.2
  | .ldi, x => .ldi x.1 x.2
  | .sta, x => .sta x.1 x.2
  | .mov, x => .mov x.1 x.2
  | .add, x => .add x.1 x.2
  | .addI, x => .addI x.1 x.2
  | .sub, x => .sub x.1 x.2
  | .subI, x => .subI x.1 x.2
  | .shtL, x => .shtL x.1 x.2
  | .shtR, x => .shtR x.1 x.2
  | .hlt, _ => .hlt
  | .jmp, a => .jmp a
  | .cmp, x => .cmp x.1 x.2
  | .cmpI, x => .cmpI x.1 x.2
  | .beq, a => .beq a
  | .bne, a => .bne a
  | .ble, a => .ble a
  | .bge, a => .bge a
  | .blt, a => .blt a
  | .bgt, a => .bgt a
  | .beqR, v => .beqR v
  | .bneR, v => .bneR v
  | .bleR, v => .bleR v
  | .bgeR, v => .bgeR v
  | .bltR, v => .bltR v
  | .bgtR, v => .bgtR v
  | .and, x => .and x.1 x.2
  | .or, x => .or x.1 x.2
  | .xor, x => .xor x.1 x.2
  | .not, x => .not x.1 x.2
  | .endProgram, _ => .endProgram
  | .input, _ => .input
  | .draw, _ => .draw
  | .out, _ => .out
  | .call, a => .call a
  | .ret, _ => .ret
  | .iniP, a => .iniP a
  | .setP, r => .setP r
  | .getP, r => .getP r
  | .updP, r => .updP r
  | .upiP, v => .upiP v
  | .getc, _ => .getc

@[simp] theorem opcode_instr (op : Opcode) (x : op.format.Operands) : (op.instr x).opcode = op := by
  cases op <;> rfl

@[simp] theorem operandBytes_instr (op : Opcode) (x : op.format.Operands) :
    (op.instr x).operandBytes = op.format.operandBytes x := by
  cases op <;> rfl

theorem encode_instr (op : Opcode) (x : op.format.Operands) :
    encode (op.instr x) = op.byte :: op.format.operandBytes x := by
  simp [encode]

/-- Every instruction is that of its opcode and its operands. -/
theorem exists_instr_eq (i : Instr) : ∃ x, i.opcode.instr x = i := by
  cases i with
  | hlt | endProgram | input | draw | out | ret | getc => exact ⟨(), rfl⟩
  | jmp x | beq x | bne x | ble x | bge x | blt x | bgt x | call x | iniP x
  | beqR x | bneR x | bleR x | bgeR x | bltR x | bgtR x | upiP x
  | setP x | getP x | updP x => exact ⟨x, rfl⟩
  | lda x y | ldi x y | sta x y | mov x y | add x y | addI x y | sub x y | subI x y | shtL x y | shtR x y
  | cmp x y | cmpI x y | and x y | or x y | xor x y | not x y => exact ⟨(x, y), rfl⟩

/-- The operand bytes of a format are as many as its length says, the opcode byte counted (R88). -/
theorem Format.length_operandBytes (f : Format) (x : f.Operands) : (f.operandBytes x).length + 1 = f.length := by
  cases f <;> rfl

theorem encode_length (i : Instr) : (encode i).length = i.length := by
  obtain ⟨x, hx⟩ := exists_instr_eq i
  simpa [encode, Instr.length, ← operandBytes_instr, hx] using i.opcode.format.length_operandBytes x

/-- R266: the cycle column is the length. -/
theorem opcodeCycles_eq_length (op : Opcode) : Machine.opcodeCycles op = op.format.length := by
  cases op <;> rfl

/-! ### The decoder -/

theorem decodeF0_ok_iff {j i : Instr} {bytes rest : List Byte} :
    decodeF0 j bytes = .ok (i, rest) ↔ ∃ x : Format.f0.Operands, j = i ∧ bytes = Format.f0.operandBytes x ++ rest := by
  simp [decodeF0, Format.Operands, Format.operandBytes]

theorem decodeFI_ok_iff {mk : Byte → Instr} {i : Instr} {bytes rest : List Byte} :
    decodeFI mk bytes = .ok (i, rest) ↔ ∃ x : Format.fi.Operands, mk x = i ∧ bytes = Format.fi.operandBytes x ++ rest := by
  constructor
  · intro h
    match bytes, h with
    | v :: _, h => cases h; exact ⟨v, rfl, rfl⟩
  · rintro ⟨x, rfl, rfl⟩
    rfl

theorem decodeFA_ok_iff {mk : Addr → Instr} {i : Instr} {bytes rest : List Byte} :
    decodeFA mk bytes = .ok (i, rest) ↔ ∃ x : Format.fa.Operands, mk x = i ∧ bytes = Format.fa.operandBytes x ++ rest := by
  constructor
  · intro h
    match bytes, h with
    | hi :: lo :: _, h => cases h; exact ⟨joinBytes hi lo, rfl, by simp [Format.operandBytes, addressBytes]⟩
  · rintro ⟨(x : Addr), rfl, rfl⟩
    simp [decodeFA, Format.operandBytes, addressBytes]

theorem decodeFRR_ok_iff {mk : Reg → Reg → Instr} {i : Instr} {bytes rest : List Byte} :
    decodeFRR mk bytes = .ok (i, rest) ↔
      ∃ x : Format.frr.Operands, mk x.1 x.2 = i ∧ bytes = Format.frr.operandBytes x ++ rest := by
  constructor
  · intro h
    match bytes, h with
    | b :: _, h => cases h; exact ⟨(hiNibble b, loNibble b), rfl, by simp [Format.operandBytes]⟩
  · rintro ⟨x, rfl, rfl⟩
    simp [decodeFRR, Format.operandBytes]

theorem decodeFRI_ok_iff {mk : Reg → Byte → Instr} {i : Instr} {bytes rest : List Byte} :
    decodeFRI mk bytes = .ok (i, rest) ↔
      ∃ x : Format.fri.Operands, mk x.1 x.2 = i ∧ bytes = Format.fri.operandBytes x ++ rest := by
  constructor
  · intro h
    match bytes, h with
    | b :: v :: _, h =>
      by_cases hb : hiNibble b = 0
      · simp only [decodeFRI, hb, if_true, Except.ok.injEq, Prod.mk.injEq] at h
        exact ⟨(loNibble b, v), h.1, by simp [Format.operandBytes, registerByte_loNibble hb, h.2]⟩
      · simp [decodeFRI, hb] at h
  · rintro ⟨x, rfl, rfl⟩
    simp [decodeFRI, Format.operandBytes]

theorem decodeFRA_ok_iff {mk : Reg → Addr → Instr} {i : Instr} {bytes rest : List Byte} :
    decodeFRA mk bytes = .ok (i, rest) ↔
      ∃ x : Format.fra.Operands, mk x.1 x.2 = i ∧ bytes = Format.fra.operandBytes x ++ rest := by
  constructor
  · intro h
    match bytes, h with
    | b :: hi :: lo :: _, h =>
      by_cases hb : hiNibble b = 0
      · simp only [decodeFRA, hb, if_true, Except.ok.injEq, Prod.mk.injEq] at h
        exact ⟨(loNibble b, joinBytes hi lo), h.1,
          by simp [Format.operandBytes, addressBytes, registerByte_loNibble hb, h.2]⟩
      · simp [decodeFRA, hb] at h
  · rintro ⟨x, rfl, rfl⟩
    simp [decodeFRA, Format.operandBytes, addressBytes]

theorem decodeFR_ok_iff {mk : Reg → Instr} {i : Instr} {bytes rest : List Byte} :
    decodeFR mk bytes = .ok (i, rest) ↔ ∃ x : Format.fr.Operands, mk x = i ∧ bytes = Format.fr.operandBytes x ++ rest := by
  constructor
  · intro h
    match bytes, h with
    | b :: _, h =>
      by_cases hb : hiNibble b = 0
      · simp only [decodeFR, hb, if_true, Except.ok.injEq, Prod.mk.injEq] at h
        exact ⟨loNibble b, h.1, by simp [Format.operandBytes, registerByte_loNibble hb, h.2]⟩
      · simp [decodeFR, hb] at h
  · rintro ⟨(x : Reg), rfl, rfl⟩
    simp [decodeFR, Format.operandBytes]

/-- The operand decoder of each opcode is the one of its format. -/
theorem decodeOperands_ok_iff {op : Opcode} {i : Instr} {bytes rest : List Byte} :
    decodeOperands op bytes = .ok (i, rest) ↔ ∃ x, op.instr x = i ∧ bytes = op.format.operandBytes x ++ rest := by
  cases op with
  | hlt | endProgram | input | draw | out | ret | getc => exact decodeF0_ok_iff
  | beqR | bneR | bleR | bgeR | bltR | bgtR | upiP => exact decodeFI_ok_iff
  | jmp | beq | bne | ble | bge | blt | bgt | call | iniP => exact decodeFA_ok_iff
  | mov | add | sub | shtL | shtR | cmp | and | or | xor | not => exact decodeFRR_ok_iff
  | ldi | addI | subI | cmpI => exact decodeFRI_ok_iff
  | lda | sta => exact decodeFRA_ok_iff
  | setP | getP | updP => exact decodeFR_ok_iff

/-- The decoder takes what the encoder writes and nothing else. -/
theorem decode_ok_iff {i : Instr} {bytes rest : List Byte} : decode bytes = .ok (i, rest) ↔ bytes = encode i ++ rest := by
  cases bytes with
  | nil => simp [decode, encode]
  | cons b more =>
    cases hop : Opcode.ofByte b with
    | none =>
      have hne : b ≠ i.opcode.byte := by rintro rfl; simp at hop
      simp [decode, hop, encode, hne]
    | some op =>
      obtain rfl := byte_of_ofByte hop
      simp only [decode, hop, decodeOperands_ok_iff, encode, List.cons_append, List.cons.injEq]
      constructor
      · rintro ⟨x, rfl, rfl⟩
        simp
      · rintro ⟨hbyte, rfl⟩
        obtain rfl : op = i.opcode := by simpa [hop] using congrArg Opcode.ofByte hbyte
        obtain ⟨x, hx⟩ := exists_instr_eq i
        exact ⟨x, hx, by rw [← operandBytes_instr, hx]⟩

/-- Settles O1: `decode_ok_iff`, from the encoding to the answer. -/
theorem decodeOfEncodeIsTheInstruction : Obligations.DecodeOfEncodeIsTheInstruction :=
  fun _ _ => decode_ok_iff.mpr rfl

/-- Settles O2: `decode_ok_iff`, from the answer to the encoding. -/
theorem acceptedBytesAreTheEncoding : Obligations.AcceptedBytesAreTheEncoding :=
  fun _ _ _ => decode_ok_iff.mp

/-! ### Well-formed bytes -/

/-- R84, R88: the rules on length and register byte describe the operand bytes of each format. -/
theorem Format.exists_operandBytes_iff (f : Format) (bytes : List Byte) :
    (∃ x, bytes = f.operandBytes x) ↔ bytes.length + 1 = f.length ∧ reservedNibbleZero f bytes = true := by
  constructor
  · rintro ⟨x, rfl⟩
    refine ⟨f.length_operandBytes x, ?_⟩
    cases f with
    | f0 | fi | fa | frr => rfl
    | fri | fra | fr => exact beq_iff_eq.mpr (hiNibble_registerByte _)
  · rintro ⟨hlen, hres⟩
    cases f with
    | f0 => exact ⟨(), List.eq_nil_of_length_eq_zero (Nat.succ.inj hlen)⟩
    | fi =>
      obtain ⟨v, rfl⟩ := List.length_eq_one_iff.mp (Nat.succ.inj hlen)
      exact ⟨v, rfl⟩
    | fa =>
      obtain ⟨hi, lo, rfl⟩ := List.length_eq_two.mp (Nat.succ.inj hlen)
      exact ⟨joinBytes hi lo, by simp [Format.operandBytes, addressBytes]⟩
    | frr =>
      obtain ⟨b, rfl⟩ := List.length_eq_one_iff.mp (Nat.succ.inj hlen)
      exact ⟨(hiNibble b, loNibble b), by simp [Format.operandBytes]⟩
    | fri =>
      obtain ⟨b, v, rfl⟩ := List.length_eq_two.mp (Nat.succ.inj hlen)
      exact ⟨(loNibble b, v), by simp [Format.operandBytes, registerByte_loNibble (beq_iff_eq.mp hres)]⟩
    | fra =>
      obtain ⟨b, hi, lo, rfl⟩ := List.length_eq_three.mp (Nat.succ.inj hlen)
      exact ⟨(loNibble b, joinBytes hi lo),
        by simp [Format.operandBytes, addressBytes, registerByte_loNibble (beq_iff_eq.mp hres)]⟩
    | fr =>
      obtain ⟨b, rfl⟩ := List.length_eq_one_iff.mp (Nat.succ.inj hlen)
      exact ⟨loNibble b, by simp [Format.operandBytes, registerByte_loNibble (beq_iff_eq.mp hres)]⟩

/-- What the rules allow is what the encoder writes. -/
theorem wellFormedBytes_iff (bytes : List Byte) : wellFormedBytes bytes = true ↔ ∃ i, bytes = encode i := by
  cases bytes with
  | nil => simp [wellFormedBytes, encode]
  | cons b more =>
    cases hop : Opcode.ofByte b with
    | none =>
      have hne : ∀ i : Instr, b ≠ i.opcode.byte := by rintro i rfl; simp at hop
      simp [wellFormedBytes, hop, encode, hne]
    | some op =>
      obtain rfl := byte_of_ofByte hop
      calc wellFormedBytes (op.byte :: more) = true
          ↔ more.length + 1 = op.format.length ∧ reservedNibbleZero op.format more = true := by
            simp [wellFormedBytes, lengthMatches]
        _ ↔ ∃ x, more = op.format.operandBytes x := (op.format.exists_operandBytes_iff more).symm
        _ ↔ ∃ i, op.byte :: more = encode i := by
            constructor
            · rintro ⟨x, rfl⟩
              exact ⟨op.instr x, (encode_instr op x).symm⟩
            · rintro ⟨i, hi⟩
              obtain ⟨hbyte, rfl⟩ := List.cons.inj hi
              obtain rfl : op = i.opcode := by simpa using congrArg Opcode.ofByte hbyte
              obtain ⟨x, hx⟩ := exists_instr_eq i
              exact ⟨x, by rw [← operandBytes_instr, hx]⟩

/-- Settles O3: both sides are the encodings of instructions. -/
theorem decoderTakesWellFormedBytesOnly : Obligations.DecoderTakesWellFormedBytesOnly := by
  intro bytes
  simp [wellFormedBytes_iff, decode_ok_iff]

/-- Settles O4: each word is what the encoder writes for its instruction. -/
theorem printedExamplesDecode : Obligations.PrintedExamplesDecode := by
  refine ⟨?_, ?_, ?_, ?_, ?_, ?_, ?_, ?_, ?_, ?_, ?_⟩ <;> exact decode_ok_iff.mpr rfl

/-- Settles O5: both numbers are the length of the format. -/
theorem cyclesEqualBytes : Obligations.CyclesEqualBytes :=
  fun i => (opcodeCycles_eq_length i.opcode).trans (encode_length i).symm

end Sys2Proof
end

section
/-! The assembler by formats (30_encoding.md R93 to R97): each operand reader answers exactly for the operands in range,
so a format's operand bytes are those of the values the operands name. -/

namespace Sys2Proof.Machine

/-! ### One operand -/

/-- R95: the numbers 0 to 15 and no others name a register. -/
theorem asmReg_eq_some_iff {x : Operand} {r : Reg} : asmReg x = some r ↔ RegOperand x r := by
  cases x with
  | reg n =>
    simp only [asmReg, RegOperand, Operand.reg.injEq]
    constructor
    · intro h
      split at h
      case isTrue => cases h; rfl
      case isFalse => cases h
    · rintro rfl
      simp
  | imm | char | decAddr | hexAddr | bare | label => simp [asmReg, RegOperand]

/-- R96: a number in range stands for itself modulo 256. -/
theorem asmNumber_eq_some_iff {n : Int} {v : Byte} :
    asmNumber n = some v ↔ -128 ≤ n ∧ n ≤ 255 ∧ (v.toNat : Int) = n % 256 := by
  have hv : BitVec.ofInt 8 n = v ↔ (v.toNat : Int) = n % 256 := by
    rw [BitVec.toNat_eq, BitVec.toNat_ofInt]
    omega
  simp [asmNumber, hv, and_assoc]

theorem asmByte_eq_some_iff {x : Operand} {v : Byte} : asmByte x = some v ↔ ByteOperand x v := by
  cases x with
  | imm n => simp [asmByte, ByteOperand, asmNumber_eq_some_iff]
  | bare n => simp [asmByte, ByteOperand, asmNumber_eq_some_iff]
  | char code =>
    have hv : code < 128 ∧ BitVec.ofNat 8 code = v ↔ code = v.toNat ∧ v.toNat < 128 := by
      rw [BitVec.toNat_eq, BitVec.toNat_ofNat]
      omega
    simpa [asmByte, ByteOperand] using hv
  | reg | decAddr | hexAddr | label => simp [asmByte, ByteOperand]

theorem asmNumberAddr_eq_some_iff {n : Nat} {a : Addr} : asmNumberAddr n = some a ↔ n = a.toNat := by
  have ha := a.isLt
  simp only [asmNumberAddr, Option.ite_none_right_eq_some, Option.some.injEq, BitVec.toNat_eq, BitVec.toNat_ofNat]
  omega

theorem asmAddr_eq_some_iff {labels : Labels} {x : Operand} {a : Addr} :
    asmAddr labels x = some a ↔ AddrOperand labels x a := by
  cases x with
  | decAddr n => simp [asmAddr, AddrOperand, asmNumberAddr_eq_some_iff]
  | hexAddr n => simp [asmAddr, AddrOperand, asmNumberAddr_eq_some_iff]
  | label name => simp [asmAddr, AddrOperand]
  | reg | imm | char | bare => simp [asmAddr, AddrOperand]

/-! ### The operands of a format -/

theorem asmOne_eq_some_iff {α : Type} {read : Operand → Option α} {bytes : α → List Byte} {ops : List Operand}
    {bs : List Byte} :
    asmOne read bytes ops = some bs ↔ ∃ x, OneOperand ops (read · = some x) ∧ bytes x = bs := by
  match ops with
  | [] => simp [asmOne, OneOperand]
  | [_] => simp [asmOne, OneOperand]
  | _ :: _ :: _ => simp [asmOne, OneOperand]

theorem asmTwo_eq_some_iff {α β : Type} {readA : Operand → Option α} {readB : Operand → Option β}
    {bytes : α → β → List Byte} {ops : List Operand} {bs : List Byte} :
    asmTwo readA readB bytes ops = some bs ↔
      ∃ x : α × β, TwoOperands ops (readA · = some x.1) (readB · = some x.2) ∧ bytes x.1 x.2 = bs := by
  match ops with
  | [] => simp [asmTwo, TwoOperands]
  | [_] => simp [asmTwo, TwoOperands]
  | [y, z] => cases hy : readA y <;> cases hz : readB z <;> simp [asmTwo, TwoOperands, hy, hz]
  | _ :: _ :: _ :: _ => simp [asmTwo, TwoOperands]

/-- The operands as written are those of the format, each as said (R94 to R97). -/
def OperandsWritten (labels : Labels) : (f : Format) → f.Operands → List Operand → Prop
  | .f0, _, ops => ops = []
  | .fi, v, ops => OneOperand ops (ByteOperand · v)
  | .fa, a, ops => OneOperand ops (AddrOperand labels · a)
  | .frr, x, ops => TwoOperands ops (RegOperand · x.1) (RegOperand · x.2)
  | .fri, x, ops => TwoOperands ops (RegOperand · x.1) (ByteOperand · x.2)
  | .fra, x, ops => TwoOperands ops (RegOperand · x.1) (AddrOperand labels · x.2)
  | .fr, r, ops => OneOperand ops (RegOperand · r)

/-- The operands of an instruction are written as its format says. -/
theorem operandsOf_instr (labels : Labels) (op : Opcode) (x : op.format.Operands) (ops : List Operand) :
    OperandsOf labels (op.instr x) ops ↔ OperandsWritten labels op.format x ops := by
  cases op <;> exact Iff.rfl

theorem asmOperands_eq_some_iff {labels : Labels} {f : Format} {ops : List Operand} {bs : List Byte} :
    asmOperands labels f ops = some bs ↔ ∃ x, OperandsWritten labels f x ops ∧ f.operandBytes x = bs := by
  cases f with
  | f0 => simp [asmOperands, OperandsWritten, Format.operandBytes, Format.Operands]
  | fi => exact asmOne_eq_some_iff.trans (by simp only [asmByte_eq_some_iff]; rfl)
  | fa => exact asmOne_eq_some_iff.trans (by simp only [asmAddr_eq_some_iff]; rfl)
  | frr => exact asmTwo_eq_some_iff.trans (by simp only [asmReg_eq_some_iff]; rfl)
  | fri => exact asmTwo_eq_some_iff.trans (by simp only [asmReg_eq_some_iff, asmByte_eq_some_iff]; rfl)
  | fra => exact asmTwo_eq_some_iff.trans (by simp only [asmReg_eq_some_iff, asmAddr_eq_some_iff]; rfl)
  | fr => exact asmOne_eq_some_iff.trans (by simp only [asmReg_eq_some_iff]; rfl)

/-- Settles O6: the bytes the assembler answers are the encoding of the opcode with the values that the operands name. -/
theorem assembledBytesDecode : Obligations.AssembledBytesDecode := by
  intro labels op ops bytes
  simp only [assemble, Option.map_eq_some_iff, asmOperands_eq_some_iff]
  constructor
  · rintro ⟨_, ⟨x, hx, rfl⟩, rfl⟩
    rw [← encode_instr]
    exact ⟨op.instr x, opcode_instr op x, (operandsOf_instr ..).mpr hx, rfl, decode_ok_iff.mpr (by simp)⟩
  · rintro ⟨i, rfl, hops, rfl, -⟩
    obtain ⟨x, hx⟩ := exists_instr_eq i
    have hwritten := (operandsOf_instr labels _ x ops).mp (hx.symm ▸ hops)
    exact ⟨_, ⟨x, hwritten, rfl⟩, by rw [← encode_instr, hx]⟩

end Sys2Proof.Machine
end

section
/-! The access primitives as equivalences (20_memory.md R52 to R60): a read answers exactly when `ReadsAs` says so and faults
exactly when `AccessFaults` does, and so for writes; what an instruction built on one access does follows. -/

namespace Sys2Proof.Machine

/-! ### Sequencing -/

theorem bind_ok_iff {α β : Type} {x : Except Fault α} {g : α → Except Fault β} {y : β} :
    x >>= g = .ok y ↔ ∃ z, x = .ok z ∧ g z = .ok y := by
  cases x <;> simp [bind, Except.bind]

theorem bind_error_iff {α β : Type} {x : Except Fault α} {g : α → Except Fault β} {f : Fault} :
    x >>= g = .error f ↔ x = .error f ∨ ∃ z, x = .ok z ∧ g z = .error f := by
  cases x <;> simp [bind, Except.bind]

theorem outcomeOf_next_iff {x : Except Fault State} {t : State} : outcomeOf x = .next t ↔ x = .ok t := by
  cases x <;> simp [outcomeOf]

theorem outcomeOf_fault_iff {x : Except Fault State} {f : Fault} : outcomeOf x = .fault f ↔ x = .error f := by
  cases x <;> simp [outcomeOf]

/-! ### Reading -/

/-- The state after a read that gave a byte and took a number of free values. -/
def takeRead (a : Addr) (v : Byte) (n : Nat) (s : State) : State := { s with mar := a, mdr := v, draws := s.draws + n }

theorem readByte_eq (kind : AccessKind) (a : Addr) (s : State) :
    readByte kind a s = if (regionOf a).isStorage then readStored a s else readUnmapped kind a s := by
  unfold readByte
  cases regionOf a <;> rfl

/-- A read answers with the byte that `ReadsAs` names. -/
theorem readByte_ok_iff {kind : AccessKind} {a : Addr} {s t : State} {v : Byte} :
    readByte kind a s = .ok (v, t) ↔ ∃ n, ReadsAs s a v n ∧ t = takeRead a v n s := by
  rw [readByte_eq]
  constructor
  · intro h
    by_cases hstore : (regionOf a).isStorage = true
    · cases hp : peek s a with
      | some w =>
        simp only [hstore, if_true, readStored, hp, Except.ok.injEq, Prod.mk.injEq] at h
        obtain ⟨rfl, rfl⟩ := h
        exact ⟨0, .inl ⟨hstore, hp, rfl⟩, rfl⟩
      | none =>
        cases hu : s.config.uninit with
        | fault => simp [hstore, readStored, hp, hu] at h
        | draw =>
          simp only [hstore, if_true, readStored, hp, hu, Except.ok.injEq, Prod.mk.injEq] at h
          obtain ⟨rfl, rfl⟩ := h
          exact ⟨0, .inr (.inl ⟨hstore, hp, hu, rfl, rfl⟩), rfl⟩
    · cases hu : s.config.unmapped with
      | fault => simp [hstore, readUnmapped, hu] at h
      | draw =>
        simp only [hstore, readUnmapped, hu] at h
        cases h
        exact ⟨1, .inr (.inr ⟨by simpa using hstore, hu, rfl, rfl⟩), rfl⟩
  · rintro ⟨n, ⟨hstore, hp, rfl⟩ | ⟨hstore, hp, hu, rfl, rfl⟩ | ⟨hstore, hu, rfl, rfl⟩, rfl⟩
    · simp [hstore, readStored, hp, takeRead, latch]
    · simp [hstore, readStored, hp, hu, takeRead, latch]
    · simp [hstore, readUnmapped, hu, takeRead, latch, countDraw]

theorem readByte_of_readsAs {s : State} {a : Addr} {v : Byte} {n : Nat} (kind : AccessKind) (h : ReadsAs s a v n) :
    readByte kind a s = .ok (v, takeRead a v n s) :=
  readByte_ok_iff.mpr ⟨n, h, rfl⟩

/-- A read raises the fault that `AccessFaults` names. -/
theorem readByte_error_iff {kind : AccessKind} {a : Addr} {s : State} {f : Fault} :
    readByte kind a s = .error f ↔ AccessFaults kind s a f := by
  constructor
  · intro h
    rcases readByte_error h with ⟨rfl, hstore, hp, hu⟩ | ⟨rfl, hstore, hu⟩
    · exact .inl ⟨hstore, hp, hu, rfl⟩
    · exact .inr ⟨hstore, hu, rfl⟩
  · rintro (⟨hstore, hp, hu, rfl⟩ | ⟨hstore, hu, rfl⟩)
    · simp [readByte_eq, hstore, readStored, hp, hu]
    · simp [readByte_eq, hstore, readUnmapped, hu]

/-- How an address reads is a matter of memory, parameters and the number of the next free value. -/
theorem readsAs_congr {s t : State} (hmem : t.mem = s.mem) (hconfig : t.config = s.config) (hdraws : t.draws = s.draws)
    {a : Addr} {v : Byte} {n : Nat} : ReadsAs t a v n ↔ ReadsAs s a v n := by
  simp only [ReadsAs, peek, hmem, hconfig, hdraws]

theorem accessFaults_congr {s t : State} (hmem : t.mem = s.mem) (hconfig : t.config = s.config) {kind : AccessKind}
    {a : Addr} {f : Fault} : AccessFaults kind t a f ↔ AccessFaults kind s a f := by
  simp only [AccessFaults, peek, hmem, hconfig]

/-- A read takes at most one free value. -/
theorem ReadsAs.taken_le {s : State} {a : Addr} {v : Byte} {n : Nat} (h : ReadsAs s a v n) : n ≤ 1 := by
  rcases h with ⟨-, -, rfl⟩ | ⟨-, -, -, -, rfl⟩ | ⟨-, -, -, rfl⟩ <;> decide

/-- A byte that stands in storage reads as it stands. -/
theorem ReadsAs.of_stored {s : State} {a : Addr} {v : Byte} (hstore : (regionOf a).isStorage = true)
    (hp : peek s a = some v) : ReadsAs s a v 0 := .inl ⟨hstore, hp, rfl⟩

/-! ### Writing -/

theorem Writable.isStorage {a : Addr} (h : Writable a) : (regionOf a).isStorage = true := by
  rcases h with h | h <;> rw [h] <;> rfl

/-- No write is both stored and dropped. -/
theorem Writable.not_dropped {a : Addr} {s : State} (h : Writable a) : ¬ WriteDropped s a := by
  rintro (⟨hr, -⟩ | ⟨hr, -⟩)
  · rcases h with h | h <;> simp [hr] at h
  · simp [h.isStorage] at hr

/-- A write answers when its byte is stored and when it is dropped. -/
theorem writeByte_ok_iff {a : Addr} {v : Byte} {s t : State} :
    writeByte a v s = .ok t ↔ Writable a ∧ t = storeByte a v s ∨ WriteDropped s a ∧ t = latch a v s := by
  unfold Writable WriteDropped writeByte
  cases hr : regionOf a with
  | ram | mailbox => simp [Region.isStorage, eq_comm]
  | rom => cases hp : s.config.romWrite <;> simp [Region.isStorage, writeRom, hp, eq_comm]
  | expansion | undocumentedIo => cases hp : s.config.unmapped <;> simp [Region.isStorage, writeUnmapped, hp, eq_comm]

theorem writeByte_error_iff {a : Addr} {v : Byte} {s : State} {f : Fault} :
    writeByte a v s = .error f ↔ WriteFaults s a v f := by
  unfold WriteFaults writeByte
  cases hr : regionOf a with
  | ram | mailbox => simp [Region.isStorage]
  | rom => cases hp : s.config.romWrite <;> simp [Region.isStorage, writeRom, hp, eq_comm]
  | expansion | undocumentedIo => cases hp : s.config.unmapped <;> simp [Region.isStorage, writeUnmapped, hp, eq_comm]

theorem exists_writeByte_ok {a : Addr} {s : State} (v : Byte) (h : Writable a ∨ WriteDropped s a) :
    ∃ t, writeByte a v s = .ok t := by
  rcases h with h | h
  · exact ⟨_, writeByte_ok_iff.mpr (.inl ⟨h, rfl⟩)⟩
  · exact ⟨_, writeByte_ok_iff.mpr (.inr ⟨h, rfl⟩)⟩

theorem not_writeFaults_of_completes {a : Addr} {v : Byte} {s : State} {f : Fault}
    (h : Writable a ∨ WriteDropped s a) : ¬ WriteFaults s a v f := by
  obtain ⟨t, ht⟩ := exists_writeByte_ok v h
  simp [← writeByte_error_iff, ht]

/-- Whether a write is dropped or faults is a matter of the parameters. -/
theorem writeDropped_congr {s t : State} (hconfig : t.config = s.config) {a : Addr} :
    WriteDropped t a ↔ WriteDropped s a := by
  simp only [WriteDropped, hconfig]

theorem writeFaults_congr {s t : State} (hconfig : t.config = s.config) {a : Addr} {v : Byte} {f : Fault} :
    WriteFaults t a v f ↔ WriteFaults s a v f := by
  simp only [WriteFaults, hconfig]

/-- A write changes memory, MAR and MDR only. -/
theorem writeByte_ok_eq {a : Addr} {v : Byte} {s t : State} (h : writeByte a v s = .ok t) :
    t = { s with mem := t.mem, mar := a, mdr := v } := by
  rcases writeByte_ok_iff.mp h with ⟨-, rfl⟩ | ⟨-, rfl⟩ <;> rfl

theorem sameMemoryBut_of_writeByte {a : Addr} {v : Byte} {s t : State} (h : writeByte a v s = .ok t) :
    SameMemoryBut [a] s t :=
  fun _ hb => writeByte_peek_other h (by simpa using hb)

theorem peek_of_writable {a : Addr} {v : Byte} {s t : State} (h : writeByte a v s = .ok t) (ha : Writable a) :
    peek t a = some v := by
  rcases writeByte_ok_iff.mp h with ⟨-, rfl⟩ | ⟨hd, -⟩
  · exact peek_storeByte_same a v s
  · exact absurd hd ha.not_dropped

theorem sameMemory_of_writeDropped {a : Addr} {v : Byte} {s t : State} (h : writeByte a v s = .ok t)
    (ha : WriteDropped s a) : SameMemory s t := by
  rcases writeByte_ok_iff.mp h with ⟨hw, -⟩ | ⟨-, rfl⟩
  · exact absurd ha hw.not_dropped
  · exact peek_latch a v s

theorem writeLands_of_writeByte {a : Addr} {v : Byte} {s t : State} (h : writeByte a v s = .ok t) : WriteLands s t a v :=
  ⟨sameMemoryBut_of_writeByte h, peek_of_writable h, fun hd => sameMemory_of_writeDropped h hd a⟩

/-! ### Instructions that are one access -/

/-- A read and what is done with its byte: LDA, GET.P, OUT and DRAW (R110, R184, R185, R212). -/
def readThen (a : Addr) (g : Byte → State → State) (s : State) : Host.Outcome State Fault Refusal :=
  outcomeOf do
    let (v, t) ← readByte .read a s
    .ok (g v t)

/-- A write and what follows it: STA and SET.P (R112, R211). -/
def writeThen (a : Addr) (v : Byte) (g : State → State) (s : State) : Host.Outcome State Fault Refusal :=
  outcomeOf do
    let t ← writeByte a v s
    .ok (g t)

theorem exec_lda (rd : Reg) (addr : Addr) (s : State) :
    exec (.lda rd addr) s = readThen addr (fun v t => advance .fra (writeReg rd v t)) s := rfl

theorem exec_getP (rd : Reg) (s : State) :
    exec (.getP rd) s = readThen s.gp (fun v t => advance .fr (writeReg rd v t)) s := rfl

theorem exec_out (s : State) : exec .out s = readThen ioOut (fun v t => advance .f0 (hostOut .int v t)) s := rfl

theorem exec_draw (s : State) : exec .draw s = readThen ioOut (fun v t => advance .f0 (hostOut .char v t)) s := rfl

theorem exec_sta (rs : Reg) (addr : Addr) (s : State) :
    exec (.sta rs addr) s = writeThen addr (readReg rs s) (advance .fra) s := rfl

theorem exec_setP (rs : Reg) (s : State) : exec (.setP rs) s = writeThen s.gp (readReg rs s) (advance .fr) s := rfl

theorem readThen_next_iff {a : Addr} {g : Byte → State → State} {s t : State} :
    readThen a g s = .next t ↔ ∃ v n, ReadsAs s a v n ∧ t = g v (takeRead a v n s) := by
  simp only [readThen, outcomeOf_next_iff, bind_ok_iff, Prod.exists, readByte_ok_iff, Except.ok.injEq]
  constructor
  · rintro ⟨v, _, ⟨n, h, rfl⟩, rfl⟩
    exact ⟨v, n, h, rfl⟩
  · rintro ⟨v, n, h, rfl⟩
    exact ⟨v, _, ⟨n, h, rfl⟩, rfl⟩

theorem readThen_fault_iff {a : Addr} {g : Byte → State → State} {s : State} {f : Fault} :
    readThen a g s = .fault f ↔ ReadFaults s a f := by
  simp [readThen, outcomeOf_fault_iff, bind_error_iff, readByte_error_iff, ReadFaults]

theorem writeThen_next_iff {a : Addr} {v : Byte} {g : State → State} {s t : State} :
    writeThen a v g s = .next t ↔ ∃ u, writeByte a v s = .ok u ∧ g u = t := by
  simp [writeThen, outcomeOf_next_iff, bind_ok_iff]

theorem writeThen_fault_iff {a : Addr} {v : Byte} {g : State → State} {s : State} {f : Fault} :
    writeThen a v g s = .fault f ↔ WriteFaults s a v f := by
  simp [writeThen, outcomeOf_fault_iff, bind_error_iff, writeByte_error_iff]

end Sys2Proof.Machine
end

section
/-! The stack (20_memory.md R63) as equivalences: a push is two writes below SP, a pop two reads from SP on. -/

namespace Sys2Proof.Machine

/-- The bytes of the return address in the order of their pushes. -/
theorem returnBytes_eq (s : State) :
    returnBytes s =
      (pushedFirst s.config.stackByteOrder (nextPc .fa s), pushedSecond s.config.stackByteOrder (nextPc .fa s)) := by
  unfold returnBytes
  cases s.config.stackByteOrder <;> rfl

/-- What is pushed is what is joined again, in either byte order. -/
theorem joinPopped_pushed (order : StackByteOrder) (v : Addr) :
    joinPopped order (pushedSecond order v) (pushedFirst order v) = v := by
  cases order <;> exact joinBytes_split v

theorem push16_ok_iff {v : Addr} {s t : State} :
    push16 v s = .ok t ↔ ∃ u,
      writeByte (s.sp - 1) (pushedFirst s.config.stackByteOrder v) { s with sp := s.sp - 1 } = .ok u ∧
      writeByte (s.sp - 2) (pushedSecond s.config.stackByteOrder v) { u with sp := s.sp - 2 } = .ok t := by
  simp only [push16, push8, bind_ok_iff]
  refine exists_congr fun u => and_congr_right fun hu => ?_
  have hsp : u.sp - 1 = s.sp - 2 := by
    rw [writeByte_ok_eq hu]
    exact sub_sub s.sp 1 1
  rw [hsp]

theorem push16_error_iff {v : Addr} {s : State} {f : Fault} :
    push16 v s = .error f ↔
      WriteFaults s (s.sp - 1) (pushedFirst s.config.stackByteOrder v) f ∨
      (Writable (s.sp - 1) ∨ WriteDropped s (s.sp - 1)) ∧
        WriteFaults s (s.sp - 2) (pushedSecond s.config.stackByteOrder v) f := by
  simp only [push16, push8, bind_error_iff, writeByte_error_iff]
  refine or_congr (writeFaults_congr rfl) ?_
  have hsp : s.sp - 1 - 1 = s.sp - 2 := sub_sub s.sp 1 1
  constructor
  · rintro ⟨u, hu, hf⟩
    refine ⟨?_, ?_⟩
    · rcases writeByte_ok_iff.mp hu with ⟨hw, -⟩ | ⟨hd, -⟩
      · exact .inl hw
      · exact .inr hd
    · rw [writeByte_ok_eq hu] at hf
      exact hsp ▸ (writeFaults_congr rfl).mp hf
  · rintro ⟨hfirst, hsecond⟩
    obtain ⟨u, hu⟩ := exists_writeByte_ok (s := { s with sp := s.sp - 1 }) (pushedFirst s.config.stackByteOrder v) hfirst
    refine ⟨u, hu, ?_⟩
    rw [writeByte_ok_eq hu]
    exact (writeFaults_congr rfl).mpr (hsp ▸ hsecond)

theorem pop8_ok_iff {s t : State} {v : Byte} :
    pop8 s = .ok (v, t) ↔ ∃ n, ReadsAs s s.sp v n ∧ t = { takeRead s.sp v n s with sp := s.sp + 1 } := by
  simp only [pop8, bind_ok_iff, Prod.exists, readByte_ok_iff, Except.ok.injEq, Prod.mk.injEq]
  constructor
  · rintro ⟨_, _, ⟨n, h, rfl⟩, rfl, rfl⟩
    exact ⟨n, h, rfl⟩
  · rintro ⟨n, h, rfl⟩
    exact ⟨v, _, ⟨n, h, rfl⟩, rfl, rfl⟩

theorem pop8_error_iff {s : State} {f : Fault} : pop8 s = .error f ↔ ReadFaults s s.sp f := by
  simp [pop8, bind_error_iff, readByte_error_iff, ReadFaults]

theorem pop16_ok_iff {s t : State} {a : Addr} :
    pop16 s = .ok (a, t) ↔ ∃ lower higher m n, ReadsAs s s.sp lower m ∧
      ReadsAs { s with draws := s.draws + m } (s.sp + 1) higher n ∧
      a = joinPopped s.config.stackByteOrder lower higher ∧
      t = { s with sp := s.sp + 2, mar := s.sp + 1, mdr := higher, draws := s.draws + m + n } := by
  have hsp : s.sp + 1 + 1 = s.sp + 2 := add_assoc s.sp 1 1
  simp only [pop16, bind_ok_iff, Prod.exists, pop8_ok_iff, Except.ok.injEq, Prod.mk.injEq]
  constructor
  · rintro ⟨lower, _, ⟨m, hlower, rfl⟩, higher, _, ⟨n, hhigher, rfl⟩, rfl, rfl⟩
    exact ⟨lower, higher, m, n, hlower, (readsAs_congr rfl rfl rfl).mp hhigher, rfl, by rw [← hsp]; rfl⟩
  · rintro ⟨lower, higher, m, n, hlower, hhigher, rfl, rfl⟩
    exact ⟨lower, _, ⟨m, hlower, rfl⟩, higher, _, ⟨n, (readsAs_congr rfl rfl rfl).mpr hhigher, rfl⟩, rfl,
      by rw [← hsp]; rfl⟩

theorem pop16_error_iff {s : State} {f : Fault} :
    pop16 s = .error f ↔ ReadFaults s s.sp f ∨ (∃ v n, ReadsAs s s.sp v n) ∧ ReadFaults s (s.sp + 1) f := by
  simp only [pop16, bind_error_iff, Prod.exists, pop8_error_iff, pop8_ok_iff]
  refine or_congr Iff.rfl ?_
  constructor
  · rintro ⟨v, _, ⟨n, h, rfl⟩, hf | ⟨_, _, _, hf⟩⟩
    · exact ⟨⟨v, n, h⟩, (accessFaults_congr rfl rfl).mp hf⟩
    · cases hf
  · rintro ⟨⟨v, n, h⟩, hf⟩
    exact ⟨v, _, ⟨n, h, rfl⟩, .inl ((accessFaults_congr rfl rfl).mpr hf)⟩

/-! ### The effect of a push -/

theorem exists_push16_ok {s : State} (v : Addr) (hfirst : Writable (s.sp - 1) ∨ WriteDropped s (s.sp - 1))
    (hsecond : Writable (s.sp - 2) ∨ WriteDropped s (s.sp - 2)) : ∃ t, push16 v s = .ok t := by
  cases h : push16 v s with
  | ok t => exact ⟨t, rfl⟩
  | error f =>
    rcases push16_error_iff.mp h with hf | ⟨-, hf⟩
    · exact absurd hf (not_writeFaults_of_completes hfirst)
    · exact absurd hf (not_writeFaults_of_completes hsecond)

/-- What a push of two bytes changes: SP, the two bytes below it as far as they are stored, MAR and MDR. -/
structure Pushed (first second : Byte) (s t : State) : Prop where
  eq : t = { s with sp := s.sp - 2, mem := t.mem, mar := s.sp - 2, mdr := second }
  frame : SameMemoryBut [s.sp - 1, s.sp - 2] s t
  first : Writable (s.sp - 1) → peek t (s.sp - 1) = some first
  second : Writable (s.sp - 2) → peek t (s.sp - 2) = some second
  firstDropped : WriteDropped s (s.sp - 1) → peek t (s.sp - 1) = peek s (s.sp - 1)
  secondDropped : WriteDropped s (s.sp - 2) → peek t (s.sp - 2) = peek s (s.sp - 2)

theorem pushed_of_push16 {v : Addr} {s t : State} (h : push16 v s = .ok t) :
    Pushed (pushedFirst s.config.stackByteOrder v) (pushedSecond s.config.stackByteOrder v) s t := by
  obtain ⟨u, hu, ht⟩ := push16_ok_iff.mp h
  have hkeep : ∀ a, a ≠ s.sp - 1 → peek u a = peek s a :=
    fun a ha => writeByte_peek_other (s := { s with sp := s.sp - 1 }) hu ha
  have hkeep' : ∀ a, a ≠ s.sp - 2 → peek t a = peek u a :=
    fun a ha => writeByte_peek_other (s := { u with sp := s.sp - 2 }) ht ha
  have huconfig : u.config = s.config := by rw [writeByte_ok_eq hu]
  exact {
    eq := by rw [writeByte_ok_eq ht, writeByte_ok_eq hu]
    frame := fun a ha => by
      simp only [List.mem_cons, List.not_mem_nil, or_false, not_or] at ha
      exact (hkeep' a ha.2).trans (hkeep a ha.1)
    first := fun hw => (hkeep' _ (by simp)).trans (peek_of_writable hu hw)
    second := peek_of_writable ht
    firstDropped := fun hd => (hkeep' _ (by simp)).trans (sameMemory_of_writeDropped hu hd _)
    secondDropped := fun hd =>
      (sameMemory_of_writeDropped ht ((writeDropped_congr huconfig).mpr hd) _).trans (hkeep _ (by simp)) }

/-- A stack whose two bytes are stored gives back what was pushed below an address. -/
theorem pop16_of_stored {v sp : Addr} {t : State} (hsp : t.sp = sp - 2)
    (hfirst : Writable (sp - 1)) (hsecond : Writable (sp - 2))
    (hp : peek t (sp - 1) = some (pushedFirst t.config.stackByteOrder v))
    (hq : peek t (sp - 2) = some (pushedSecond t.config.stackByteOrder v)) :
    pop16 t = .ok (v, { t with sp := sp, mar := sp - 1, mdr := pushedFirst t.config.stackByteOrder v }) := by
  have hnext : sp - 2 + 1 = sp - 1 := by bv_omega
  refine pop16_ok_iff.mpr ⟨pushedSecond t.config.stackByteOrder v, pushedFirst t.config.stackByteOrder v, 0, 0, ?_, ?_,
    (joinPopped_pushed _ v).symm, ?_⟩
  · rw [hsp]
    exact .of_stored hsecond.isStorage hq
  · rw [hsp, hnext]
    exact .of_stored hfirst.isStorage hp
  · rw [hsp, hnext, sub_add_cancel]
    rfl

/-! ### CALL and RET -/

theorem exec_call (addr : Addr) (s : State) :
    exec (.call addr) s = outcomeOf (push16 (nextPc .fa s) s >>= fun t => .ok { t with pc := addr }) := rfl

theorem exec_ret (s : State) : exec .ret s = outcomeOf (pop16 s >>= fun p => .ok { p.2 with pc := p.1 }) := rfl

theorem exec_call_next_iff {addr : Addr} {s t : State} :
    exec (.call addr) s = .next t ↔ ∃ u, push16 (nextPc .fa s) s = .ok u ∧ { u with pc := addr } = t := by
  simp [exec_call, outcomeOf_next_iff, bind_ok_iff]

theorem exec_call_fault_iff {addr : Addr} {s : State} {f : Fault} :
    exec (.call addr) s = .fault f ↔
      WriteFaults s (s.sp - 1) (returnBytes s).1 f ∨
      (Writable (s.sp - 1) ∨ WriteDropped s (s.sp - 1)) ∧ WriteFaults s (s.sp - 2) (returnBytes s).2 f := by
  simp [exec_call, outcomeOf_fault_iff, bind_error_iff, push16_error_iff, returnBytes_eq]

theorem exec_ret_next_iff {s t : State} :
    exec .ret s = .next t ↔ ∃ a u, pop16 s = .ok (a, u) ∧ { u with pc := a } = t := by
  simp [exec_ret, outcomeOf_next_iff, bind_ok_iff]

theorem exec_ret_fault_iff {s : State} {f : Fault} :
    exec .ret s = .fault f ↔ ReadFaults s s.sp f ∨ (∃ v n, ReadsAs s s.sp v n) ∧ ReadFaults s (s.sp + 1) f := by
  simp [exec_ret, outcomeOf_fault_iff, bind_error_iff, pop16_error_iff]

end Sys2Proof.Machine
end

section
/-! What every instruction leaves unchanged: the stores an execution makes, and the frame of `exec` field by field. -/

namespace Sys2Proof.Machine

/-! ### Stores -/

/-- A memory is another one after stores of bytes at writable addresses of a list. -/
inductive StoredIn (l : List Addr) (m : Memory) : Memory → Prop
  | refl : StoredIn l m m
  | store {m' : Memory} (h : StoredIn l m m') {a : Addr} (v : Byte) (hw : Writable a) (hl : a ∈ l) :
      StoredIn l m (Memory.set m' a.toNat v)

theorem StoredIn.of_writeByte {l : List Addr} {m : Memory} {a : Addr} {v : Byte} {s t : State} (h : StoredIn l m s.mem)
    (hwrite : writeByte a v s = .ok t) (hl : a ∈ l) : StoredIn l m t.mem := by
  rcases writeByte_ok_iff.mp hwrite with ⟨hw, rfl⟩ | ⟨-, rfl⟩
  · exact h.store v hw hl
  · exact h

theorem StoredIn.of_depositInput {l : List Addr} {m : Memory} {kind : IoKind} {s : State} (p : Byte × Byte)
    (h : StoredIn l m s.mem) (hstatus : ioStatus kind ∈ l) (hdata : ioData kind ∈ l) :
    StoredIn l m (depositInput kind p s).mem :=
  (h.store p.1 (.inr (regionOf_ioStatus kind)) hstatus).store p.2 (.inr (regionOf_ioData kind)) hdata

/-- An address that is not writable or not in the list keeps its content. -/
theorem StoredIn.get_eq {l : List Addr} {m m' : Memory} (h : StoredIn l m m') {a : Addr} (ha : Writable a → a ∉ l) :
    Memory.get m' a.toNat = Memory.get m a.toNat := by
  induction h with
  | refl => rfl
  | @store m' _ b v hw hl ih =>
    have hne : a.toNat ≠ b.toNat := fun e => ha (BitVec.eq_of_toNat_eq e ▸ hw) (BitVec.eq_of_toNat_eq e ▸ hl)
    rw [get_set_other m' b.toNat a.toNat v hne, ih]

theorem StoredIn.wf {l : List Addr} {m m' : Memory} (h : StoredIn l m m') (hm : Memory.wf m) : Memory.wf m' := by
  induction h with
  | refl => exact hm
  | @store _ _ a v _ _ ih => exact wf_set a.toNat v a.isLt ih

theorem StoredIn.storageOnly {l : List Addr} {m m' : Memory} (h : StoredIn l m m') (hm : storageOnly m) :
    storageOnly m' := by
  induction h with
  | refl => exact hm
  | @store _ _ a v hw _ ih =>
    intro c hc
    rcases mem_set hc with rfl | hc
    · simpa using hw.isStorage
    · exact ih c hc

/-! ### The frame of an instruction -/

theorem readReg_writeReg_of_destination {i : Instr} {rd r : Reg} (hd : destination i = some rd)
    (hr : destination i ≠ some r) (v : Byte) (s : State) : readReg r (writeReg rd v s) = readReg r s :=
  readReg_writeReg_other v s fun e => hr (e ▸ hd)

/-- What an instruction that leads from one state to another may change, field by field (10_state.md R21 to R37). Each field
has the proof that serves the instructions which leave it alone. -/
structure ExecFrame (i : Instr) (s t : State) : Prop where
  regs : ∀ r, destination i ≠ some r → readReg r t = readReg r s := by exact fun r _ => readReg_congr rfl r
  pc : transfersControl i.opcode = false →
    t.pc = if inputUnanswered i s then s.pc else s.pc + BitVec.ofNat 16 i.length := by exact fun _ => rfl
  reserved : SameReservedStatus s t := by rfl
  carry : writesBothFlags i.opcode = false → flagC t = flagC s := by exact fun _ => rfl
  status : writesBothFlags i.opcode = false → writesOnlyZ i.opcode = false → SameStatus s t := by exact fun _ _ => rfl
  sp : t.sp = if i.opcode = .call then s.sp - 2 else if i.opcode = .ret then s.sp + 2 else s.sp := by rfl
  gp : i.opcode ∉ [Opcode.iniP, .updP, .upiP] → t.gp = s.gp := by exact fun _ => rfl
  run : t.run = if i = .hlt then .waiting else if i = .endProgram then .ended else s.run := by rfl
  pendingInput : t.pendingInput = if i = .input then (if inputUnanswered i s then some .int else none)
    else if i = .getc then (if inputUnanswered i s then some .char else none) else s.pendingInput := by rfl
  output : t.output = s.output ∨
    (i = .out ∨ i = .draw) ∧ ∃ kind b, t.output = s.output ++ [(kind, b)] := by exact .inl rfl
  config : t.config = s.config := by rfl
  mem : StoredIn (storedAddresses i s) s.mem t.mem := by exact .refl

theorem sameReservedStatus_writeZ (z : Bool) (s : State) : SameReservedStatus s (writeZ z s) := reserved_srWithZ z s.sr

theorem sameReservedStatus_writeC_writeZ (c z : Bool) (s : State) : SameReservedStatus s (writeC c (writeZ z s)) :=
  (reserved_srWithC c _).trans (reserved_srWithZ z s.sr)

theorem inputUnanswered_inputInstr (kind : IoKind) (s : State) :
    inputUnanswered (inputInstr kind) s = (Config.hostInput kind s.draws).isNone := by
  cases kind <;> simp [inputUnanswered, inputInstr]

/-- All that an answer does. -/
theorem takeInput_some_eq (kind : IoKind) (p : Byte × Byte) (s : State) :
    takeInput kind (some p) s =
      { s with
        mem := (depositInput kind p s).mem, mar := ioData kind, mdr := p.2, draws := s.draws + 1
        pc := s.pc + 1, pendingInput := none } := by
  simp only [takeInput]
  rw [(depositInput_frame kind p (countDraw s)).1]
  rfl

/-- IN and GETC: an answer goes into the mailbox, without one the instruction waits. -/
theorem inputTurn_frame (kind : IoKind) (s : State) : ExecFrame (inputInstr kind) s (inputTurn kind s) := by
  have hunanswered := inputUnanswered_inputInstr kind s
  rcases inputTurn_cases kind s with ⟨hans, hturn⟩ | ⟨answer, hans, hturn⟩
  · rw [hans, Option.isNone_none] at hunanswered
    rw [hturn]
    cases kind <;> exact { pc := fun _ => by rw [hunanswered]; rfl, pendingInput := by rw [hunanswered]; rfl }
  · rw [hans, Option.isNone_some] at hunanswered
    have hmem l (hstatus : ioStatus kind ∈ l) (hdata : ioData kind ∈ l) :
        StoredIn l s.mem (depositInput kind answer s).mem :=
      StoredIn.of_depositInput answer .refl hstatus hdata
    rw [hturn, takeInput_some_eq]
    generalize (depositInput kind answer s).mem = m at hmem
    cases kind <;> exact {
      pc := fun _ => by rw [hunanswered]; rfl
      pendingInput := by rw [hunanswered]; rfl
      mem := hmem _ (by simp [storedAddresses, inputInstr]) (by simp [storedAddresses, inputInstr]) }

/-- The frame of every instruction, by the shared operation that each is made of. -/
theorem exec_frame {i : Instr} {s t : State} (h : exec i s = .next t) : ExecFrame i s t := by
  cases i with
  | add | addI | sub | subI =>
    obtain rfl := Host.Outcome.next.inj h
    exact {
      regs := fun r hr => readReg_writeReg_of_destination rfl hr _ s
      reserved := sameReservedStatus_writeC_writeZ _ _ s
      carry := nofun
      status := nofun }
  | shtL | shtR | and | or | xor | not =>
    obtain rfl := Host.Outcome.next.inj h
    exact {
      regs := fun r hr => readReg_writeReg_of_destination rfl hr _ s
      reserved := sameReservedStatus_writeZ _ s
      carry := fun _ => flagC_writeZ _ s
      status := nofun }
  | cmp | cmpI =>
    obtain rfl := Host.Outcome.next.inj h
    exact { reserved := sameReservedStatus_writeC_writeZ _ _ s, carry := nofun, status := nofun }
  | ldi | mov =>
    obtain rfl := Host.Outcome.next.inj h
    exact { regs := fun r hr => readReg_writeReg_of_destination rfl hr _ s }
  | jmp | beq | bne | ble | bge | blt | bgt | beqR | bneR | bleR | bgeR | bltR | bgtR =>
    obtain rfl := Host.Outcome.next.inj h
    exact { pc := nofun }
  | hlt | endProgram =>
    obtain rfl := Host.Outcome.next.inj h
    exact { }
  | iniP | updP | upiP =>
    obtain rfl := Host.Outcome.next.inj h
    exact { gp := fun hop => absurd (by simp [Instr.opcode]) hop }
  | lda | getP =>
    simp only [exec_lda, exec_getP, readThen_next_iff] at h
    obtain ⟨v, n, -, rfl⟩ := h
    exact { regs := fun r hr => readReg_writeReg_of_destination rfl hr v _ }
  | out | draw =>
    simp only [exec_out, exec_draw, readThen_next_iff] at h
    obtain ⟨v, n, -, rfl⟩ := h
    exact { output := .inr ⟨by simp, _, v, rfl⟩ }
  | sta | setP =>
    obtain ⟨u, hu, rfl⟩ := writeThen_next_iff.mp h
    have hmem := StoredIn.refl.of_writeByte hu (List.mem_singleton.mpr rfl)
    rw [writeByte_ok_eq hu]
    exact { mem := hmem }
  | call =>
    obtain ⟨w, hpush, rfl⟩ := exec_call_next_iff.mp h
    obtain ⟨u, hu, hw⟩ := push16_ok_iff.mp hpush
    have hmem : StoredIn [s.sp - 1, s.sp - 2] s.mem u.mem :=
      StoredIn.of_writeByte (s := { s with sp := s.sp - 1 }) .refl hu (by simp)
    have hmem := StoredIn.of_writeByte (s := { u with sp := s.sp - 2 }) hmem hw (by simp)
    rw [writeByte_ok_eq hw, writeByte_ok_eq hu]
    exact { pc := nofun, mem := hmem }
  | ret =>
    obtain ⟨a, u, hpop, rfl⟩ := exec_ret_next_iff.mp h
    obtain ⟨lower, higher, m, n, -, -, rfl, rfl⟩ := pop16_ok_iff.mp hpop
    exact { pc := nofun }
  | input => exact Host.Outcome.next.inj h ▸ inputTurn_frame .int s
  | getc => exact Host.Outcome.next.inj h ▸ inputTurn_frame .char s

/-! ### What follows for every instruction -/

/-- Settles O17: the fields `run` and `pendingInput` of the frame. -/
theorem runStateWriters : Obligations.RunStateWriters :=
  fun _ _ _ h => ⟨(exec_frame h).run, (exec_frame h).pendingInput⟩

/-- Settles O22: the fields of the frame on SR. -/
theorem flagWriters : Obligations.FlagWriters :=
  fun _ _ _ h => ⟨(exec_frame h).reserved, (exec_frame h).carry, (exec_frame h).status⟩

/-- Settles O23: the fields of the frame on SP and GP. -/
theorem pointerRegisterWriters : Obligations.PointerRegisterWriters :=
  fun _ _ _ h => ⟨(exec_frame h).sp, (exec_frame h).gp⟩

/-- Settles O24: what is stored is stored at a listed address. -/
theorem storesOnlyWhereListed : Obligations.StoresOnlyWhereListed :=
  fun _ _ _ h _ ha => (exec_frame h).mem.get_eq fun _ => ha

/-- Settles O25: the field of the frame on the registers. -/
theorem onlyTheDestinationIsWritten : Obligations.OnlyTheDestinationIsWritten :=
  fun _ _ _ h => (exec_frame h).regs

/-- Settles O26: the field of the frame on PC. -/
theorem pcAdvancesByTheLength : Obligations.PcAdvancesByTheLength :=
  fun _ _ _ h => (exec_frame h).pc

end Sys2Proof.Machine
end

section
/-! The fetch (30_encoding.md R92): the opcode byte, the operand bytes in rising order, then the register byte's high
nibble, each with the fault that stops it. -/

namespace Sys2Proof

/-- R89, R90: the assigned opcode bytes are 0 to 41. -/
theorem opcode_byte_lt (op : Opcode) : op.byte.toNat < 42 := by
  cases op <;> decide

theorem exists_byte_eq {b : Byte} (h : b.toNat < 42) : ∃ op : Opcode, op.byte = b := by
  have hall : ∀ k : Fin 42, ∃ op ∈ Opcode.all, op.byte = BitVec.ofNat 8 k := by decide
  obtain ⟨op, -, hop⟩ := hall ⟨b.toNat, h⟩
  exact ⟨op, by simpa using hop⟩

theorem ofByte_eq_none_iff {b : Byte} : Opcode.ofByte b = none ↔ 42 ≤ b.toNat := by
  constructor
  · intro h
    by_contra hlt
    obtain ⟨op, rfl⟩ := exists_byte_eq (Nat.lt_of_not_le hlt)
    simp at h
  · intro h
    cases hop : Opcode.ofByte b with
    | none => rfl
    | some op =>
      have := opcode_byte_lt op
      rw [byte_of_ofByte hop] at this
      omega

theorem hiNibble_ne_zero_iff {b : Byte} : hiNibble b ≠ 0 ↔ 16 ≤ b.toNat := by
  rw [Ne, Fin.ext_iff, hiNibble_val]
  show ¬ b.toNat / 16 = 0 ↔ _
  omega

theorem Format.length_pos (f : Format) : 0 < f.length := by
  cases f <;> decide

theorem Format.one_lt_length_of_register {f : Format} (h : f.hasRegisterByte = true) : 1 < f.length := by
  cases f with
  | fri | fra | fr => decide
  | _ => cases h

/-- R84: a register byte with a non-zero high nibble is refused by name. -/
theorem decodeOperands_of_reserved {op : Opcode} {b : Byte} {more : List Byte}
    (hlen : (b :: more).length + 1 = op.format.length) (hreg : op.format.hasRegisterByte = true) (hb : hiNibble b ≠ 0) :
    decodeOperands op (b :: more) = .error (.reservedRegisterByte b) := by
  cases op with
  | setP | getP | updP => simp [decodeOperands, decodeFR, hb]
  | ldi | addI | subI | cmpI =>
    obtain ⟨v, rfl⟩ := List.length_eq_one_iff.mp (Nat.succ.inj (Nat.succ.inj hlen))
    simp [decodeOperands, decodeFRI, hb]
  | lda | sta =>
    obtain ⟨hi, lo, rfl⟩ := List.length_eq_two.mp (Nat.succ.inj (Nat.succ.inj hlen))
    simp [decodeOperands, decodeFRA, hb]
  | _ => cases hreg

/-- As many bytes as the opcode needs are its operands, or begin with a reserved register byte (R84, R88). -/
theorem decodeOperands_cases {op : Opcode} {bytes : List Byte} (hlen : bytes.length + 1 = op.format.length) :
    (∃ x, bytes = op.format.operandBytes x ∧ decodeOperands op bytes = .ok (op.instr x, [])) ∨
    ∃ b more, bytes = b :: more ∧ hiNibble b ≠ 0 ∧ decodeOperands op bytes = .error (.reservedRegisterByte b) := by
  by_cases hres : reservedNibbleZero op.format bytes = true
  · obtain ⟨x, rfl⟩ := (op.format.exists_operandBytes_iff bytes).mpr ⟨hlen, hres⟩
    exact .inl ⟨x, rfl, decodeOperands_ok_iff.mpr ⟨x, rfl, by simp⟩⟩
  · cases hreg : op.format.hasRegisterByte with
    | false => simp [reservedNibbleZero, hreg] at hres
    | true =>
      cases bytes with
      | nil =>
        have hlt := Format.one_lt_length_of_register hreg
        rw [List.length_nil] at hlen
        omega
      | cons b more =>
        have hb : hiNibble b ≠ 0 := by simpa [reservedNibbleZero, hreg] using hres
        exact .inr ⟨b, more, rfl, hb, decodeOperands_of_reserved hlen hreg hb⟩

end Sys2Proof

namespace Sys2Proof.Machine

/-! ### Operand bytes -/

/-- R80: consecutive addresses. -/
theorem add_ofNat_succ (a : Addr) (k : Nat) : a + BitVec.ofNat 16 (k + 1) = a + 1 + BitVec.ofNat 16 k := by
  rw [BitVec.ofNat_add, add_comm (BitVec.ofNat 16 k), add_assoc]
  rfl

theorem fetchOperands_succ_ok_iff {n : Nat} {a : Addr} {s u : State} {bytes : List Byte} :
    fetchOperands (n + 1) a s = .ok (bytes, u) ↔ ∃ v k more, ReadsAs s a v k ∧
      fetchOperands n (a + 1) (takeRead a v k s) = .ok (more, u) ∧ bytes = v :: more := by
  simp only [fetchOperands, bind_ok_iff, Prod.exists, readByte_ok_iff, Except.ok.injEq, Prod.mk.injEq]
  constructor
  · rintro ⟨v, _, ⟨k, hv, rfl⟩, more, _, hmore, rfl, rfl⟩
    exact ⟨v, k, more, hv, hmore, rfl⟩
  · rintro ⟨v, k, more, hv, hmore, rfl⟩
    exact ⟨v, _, ⟨k, hv, rfl⟩, more, _, hmore, rfl, rfl⟩

theorem fetchOperands_succ_error_iff {n : Nat} {a : Addr} {s : State} {f : Fault} :
    fetchOperands (n + 1) a s = .error f ↔
      AccessFaults .fetch s a f ∨ ∃ v k, ReadsAs s a v k ∧ fetchOperands n (a + 1) (takeRead a v k s) = .error f := by
  simp only [fetchOperands, bind_error_iff, Prod.exists, readByte_error_iff, readByte_ok_iff]
  refine or_congr Iff.rfl ?_
  constructor
  · rintro ⟨v, _, ⟨k, hv, rfl⟩, hf | ⟨_, _, _, hf⟩⟩
    · exact ⟨v, k, hv, hf⟩
    · cases hf
  · rintro ⟨v, k, hv, hf⟩
    exact ⟨v, _, ⟨k, hv, rfl⟩, .inl hf⟩

/-- What fetching operand bytes after an access changes: MAR goes on to the last of them, and each takes at most one free
value. -/
theorem fetchOperands_ok {n : Nat} {s u : State} {bytes : List Byte}
    (h : fetchOperands n (s.mar + 1) s = .ok (bytes, u)) :
    bytes.length = n ∧ u = { s with mar := s.mar + BitVec.ofNat 16 n, mdr := u.mdr, draws := u.draws } ∧
      s.draws ≤ u.draws ∧ u.draws ≤ s.draws + n := by
  induction n generalizing s bytes with
  | zero =>
    cases h
    simp
  | succ n ih =>
    obtain ⟨v, k, more, hv, hmore, rfl⟩ := fetchOperands_succ_ok_iff.mp h
    obtain ⟨hlen, hu, hle, hge⟩ := ih (s := takeRead (s.mar + 1) v k s) hmore
    have hk := hv.taken_le
    refine ⟨by simp [hlen], ?_, ?_, ?_⟩
    · rw [hu, add_ofNat_succ]
      rfl
    · exact (Nat.le_add_right ..).trans hle
    · simp only [takeRead] at hge
      omega

/-- An address reads exactly when its fetch raises no fault. -/
theorem exists_readsAs_iff {s : State} {a : Addr} : (∃ v n, ReadsAs s a v n) ↔ ∀ f, ¬ AccessFaults .fetch s a f := by
  simp only [← readByte_error_iff]
  constructor
  · rintro ⟨v, n, h⟩ f hf
    simp [readByte_of_readsAs .fetch h] at hf
  · intro h
    cases hread : readByte .fetch a s with
    | error f => exact absurd hread (h f)
    | ok p =>
      obtain ⟨n, hv, -⟩ := readByte_ok_iff.mp hread
      exact ⟨p.1, n, hv⟩

theorem exists_readsAs_congr {s t : State} (hmem : t.mem = s.mem) (hconfig : t.config = s.config) {a : Addr} :
    (∃ v n, ReadsAs t a v n) ↔ ∃ v n, ReadsAs s a v n := by
  simp only [exists_readsAs_iff, accessFaults_congr hmem hconfig]

/-- R92, R233: the first byte in rising order that cannot be fetched stops the fetch. -/
theorem fetchOperands_error_iff {n : Nat} {a : Addr} {s : State} {f : Fault} :
    fetchOperands n a s = .error f ↔ ∃ k, k < n ∧ (∀ j, j < k → ∃ v m, ReadsAs s (a + BitVec.ofNat 16 j) v m) ∧
      AccessFaults .fetch s (a + BitVec.ofNat 16 k) f := by
  induction n generalizing a s with
  | zero => simp [fetchOperands]
  | succ n ih =>
    have hzero : a + BitVec.ofNat 16 0 = a := by simp
    rw [fetchOperands_succ_error_iff]
    constructor
    · rintro (hf | ⟨v, k, hv, hf⟩)
      · exact ⟨0, n.succ_pos, nofun, by rwa [hzero]⟩
      · obtain ⟨m, hm, hreads, hf⟩ := ih.mp hf
        refine ⟨m + 1, Nat.succ_lt_succ hm, fun j hj => ?_, ?_⟩
        · cases j with
          | zero => exact ⟨v, k, by rwa [hzero]⟩
          | succ j =>
            rw [add_ofNat_succ]
            exact (exists_readsAs_congr (s := s) (t := takeRead a v k s) rfl rfl).mp (hreads j (Nat.lt_of_succ_lt_succ hj))
        · rw [add_ofNat_succ]
          exact (accessFaults_congr rfl rfl).mp hf
    · rintro ⟨m, hm, hreads, hf⟩
      cases m with
      | zero => exact .inl (by rwa [hzero] at hf)
      | succ m =>
        obtain ⟨v, k, hv⟩ := hreads 0 m.succ_pos
        rw [hzero] at hv
        refine .inr ⟨v, k, hv, ih.mpr ⟨m, Nat.lt_of_succ_lt_succ hm, fun j hj => ?_, ?_⟩⟩
        · have hread := hreads (j + 1) (Nat.succ_lt_succ hj)
          rw [add_ofNat_succ] at hread
          exact (exists_readsAs_congr (s := s) (t := takeRead a v k s) rfl rfl).mpr hread
        · rw [add_ofNat_succ] at hf
          exact (accessFaults_congr rfl rfl).mpr hf

/-- Bytes stand in storage from an address on. -/
def StoredAt (s : State) (a : Addr) (bytes : List Byte) : Prop :=
  ∀ k v, bytes[k]? = some v →
    (regionOf (a + BitVec.ofNat 16 k)).isStorage = true ∧ peek s (a + BitVec.ofNat 16 k) = some v

theorem codeAt_iff_storedAt {s : State} {bytes : List Byte} : CodeAt s bytes ↔ StoredAt s s.pc bytes := Iff.rfl

theorem StoredAt.head {s : State} {a : Addr} {b : Byte} {bytes : List Byte} (h : StoredAt s a (b :: bytes)) :
    ReadsAs s a b 0 := by
  obtain ⟨hstore, hp⟩ := h 0 b rfl
  have hzero : a + BitVec.ofNat 16 0 = a := by simp
  exact .of_stored (hzero ▸ hstore) (hzero ▸ hp)

theorem StoredAt.tail {s : State} {a : Addr} {b : Byte} {bytes : List Byte} (h : StoredAt s a (b :: bytes)) :
    StoredAt s (a + 1) bytes :=
  fun k v hk => add_ofNat_succ a k ▸ h (k + 1) v hk

theorem fetchOperands_of_stored {bytes : List Byte} {s : State} (h : StoredAt s (s.mar + 1) bytes) :
    fetchOperands bytes.length (s.mar + 1) s = .ok (bytes,
      { s with mar := s.mar + BitVec.ofNat 16 bytes.length, mdr := bytes.getLast?.getD s.mdr }) := by
  induction bytes generalizing s with
  | nil => simp [fetchOperands]
  | cons b bytes ih =>
    have hrest := ih (s := takeRead (s.mar + 1) b 0 s) h.tail
    refine fetchOperands_succ_ok_iff.mpr ⟨b, 0, bytes, h.head, hrest.trans ?_, rfl⟩
    rw [List.length_cons, add_ofNat_succ, List.getLast?_cons]
    rfl

/-! ### The whole fetch -/

/-- The state after the opcode byte is fetched (R92 steps 2 and 3). -/
def opcodeFetched (b : Byte) (n : Nat) (s : State) : State := latchOpcode b (takeRead s.pc b n s)

/-- The instruction of an opcode and the operand bytes fetched (R92 steps 5 and 6). -/
def decodeFetched (pc : Addr) (op : Opcode) (p : List Byte × State) : Except Fault (Instr × State) :=
  match decodeOperands op p.1 with
  | .ok (i, _) => .ok (i, p.2)
  | .error e => .error (faultOfDecodeError pc op.byte e)

theorem fetch_of_accessFaults {s : State} {f : Fault} (h : AccessFaults .fetch s s.pc f) : fetch s = .error f := by
  simp [fetch, readByte_error_iff.mpr h, bind, Except.bind]

theorem fetch_of_unassigned {s : State} {b : Byte} {n : Nat} (h : ReadsAs s s.pc b n) (hb : 42 ≤ b.toNat) :
    fetch s = .error (.illegalOpcode s.pc b) := by
  simp [fetch, readByte_of_readsAs .fetch h, bind, Except.bind, ofByte_eq_none_iff.mpr hb]

theorem fetch_of_opcode {s : State} {op : Opcode} {n : Nat} (h : ReadsAs s s.pc op.byte n) :
    fetch s = fetchOperands (op.format.length - 1) (s.pc + 1) (opcodeFetched op.byte n s) >>= decodeFetched s.pc op := by
  simp only [fetch, readByte_of_readsAs .fetch h, bind, Except.bind, ofByte_byte, decode]
  rfl

/-- The three ways a fetch begins. -/
theorem fetch_cases (s : State) :
    (∃ f, AccessFaults .fetch s s.pc f) ∨ (∃ b n, ReadsAs s s.pc b n ∧ 42 ≤ b.toNat) ∨
    ∃ op n, ReadsAs s s.pc (Opcode.byte op) n := by
  by_cases hread : ∃ b n, ReadsAs s s.pc b n
  · obtain ⟨b, n, hb⟩ := hread
    by_cases hlt : b.toNat < 42
    · obtain ⟨op, rfl⟩ := exists_byte_eq hlt
      exact .inr (.inr ⟨op, n, hb⟩)
    · exact .inr (.inl ⟨b, n, hb, Nat.le_of_not_lt hlt⟩)
  · rw [exists_readsAs_iff] at hread
    push Not at hread
    exact .inl hread

end Sys2Proof.Machine
end

section
/-! Statements about the fetch and about whole steps: what a fetch changes and when it faults, which faults an execution
raises, and what every step keeps. -/

namespace Sys2Proof.Machine

/-! ### A fetch that gives an instruction -/

/-- The fetch of an instruction is the fetch of its operand bytes after its opcode byte. -/
theorem fetch_ok {s u : State} {i : Instr} (h : fetch s = .ok (i, u)) :
    ∃ n bytes, ReadsAs s s.pc i.opcode.byte n ∧
      fetchOperands (i.length - 1) (s.pc + 1) (opcodeFetched i.opcode.byte n s) = .ok (bytes, u) := by
  rcases fetch_cases s with ⟨f, hf⟩ | ⟨b, n, hb, hge⟩ | ⟨op, n, hop⟩
  · simp [fetch_of_accessFaults hf] at h
  · simp [fetch_of_unassigned hb hge] at h
  · rw [fetch_of_opcode hop, bind_ok_iff] at h
    obtain ⟨⟨bytes, w⟩, hfetch, hdecode⟩ := h
    cases hi : decodeOperands op bytes with
    | error e => simp [decodeFetched, hi] at hdecode
    | ok p =>
      obtain ⟨j, rest⟩ := p
      obtain ⟨x, rfl, -⟩ := decodeOperands_ok_iff.mp hi
      simp only [decodeFetched, hi, Except.ok.injEq, Prod.mk.injEq] at hdecode
      obtain ⟨rfl, rfl⟩ := hdecode
      rw [Instr.length, opcode_instr]
      exact ⟨n, bytes, hop, hfetch⟩

/-- Settles O8: the opcode byte is latched at PC, then MAR goes on to the last operand byte. -/
theorem fetchChangesOnlyHiddenState : Obligations.FetchChangesOnlyHiddenState := by
  intro s t i h
  obtain ⟨n, bytes, hop, hfetch⟩ := fetch_ok h
  obtain ⟨-, ht, hle, hge⟩ := fetchOperands_ok (s := opcodeFetched i.opcode.byte n s) hfetch
  have hdraws : (opcodeFetched i.opcode.byte n s).draws = s.draws + n := rfl
  have hn := hop.taken_le
  have hpos : 0 < i.length := i.opcode.format.length_pos
  exact ⟨ht, by omega, by omega⟩

/-- R92: an instruction that stands in storage at PC is fetched. -/
theorem fetch_of_codeAt {s : State} {i : Instr} {last : Byte} (h : CodeAt s (encode i))
    (hlast : (encode i).getLast? = some last) :
    fetch s = .ok (i, { s with
      ir := i.opcode.byte, mar := s.pc + BitVec.ofNat 16 ((encode i).length - 1), mdr := last }) := by
  have hstored : StoredAt s s.pc (i.opcode.byte :: i.operandBytes) := codeAt_iff_storedAt.mp h
  have hmdr : i.operandBytes.getLast?.getD i.opcode.byte = last := by
    simpa [encode, List.getLast?_cons] using hlast
  have hlen : i.opcode.format.length - 1 = i.operandBytes.length := by
    have := encode_length i
    simp only [encode, List.length_cons, Instr.length] at this
    omega
  have hoperands := fetchOperands_of_stored (s := opcodeFetched i.opcode.byte 0 s) hstored.tail
  have hdecode : decodeOperands i.opcode i.operandBytes = .ok (i, []) := by
    obtain ⟨x, hx⟩ := exists_instr_eq i
    exact decodeOperands_ok_iff.mpr ⟨x, hx, by rw [← operandBytes_instr, hx, List.append_nil]⟩
  rw [fetch_of_opcode hstored.head, hlen, bind_ok_iff]
  refine ⟨_, hoperands, ?_⟩
  simp only [decodeFetched, hdecode, Except.ok.injEq, Prod.mk.injEq, true_and]
  rw [← hmdr]
  rfl

/-- Settles O7: bytes that decode are the encoding, and an encoding in storage is fetched. -/
theorem stepRunsTheDecodedInstruction : Obligations.StepRunsTheDecodedInstruction := by
  intro s i bytes last hrun hpending hdecode hcode hlast
  obtain rfl : bytes = encode i := by simpa using decode_ok_iff.mp hdecode
  exact step_fetching hrun hpending (fetch_of_codeAt hcode hlast)

/-! ### The faults of a fetch -/

theorem step_fetch_error {s : State} {f : Fault} (hrun : s.run = .running) (hpending : s.pendingInput = none)
    (h : fetch s = .error f) : step s = .fault f := by
  simp [step, hrun, hpending, h]

/-- Settles O9: the opcode byte is read first, and looked up before any operand byte is read. -/
theorem opcodeByteFaultsComeFirst : Obligations.OpcodeByteFaultsComeFirst := by
  intro s hrun hpending
  refine ⟨fun hstore hp hu => ?unwritten, fun hstore hu => ?unmapped, fun b n hb hge => ?unassigned⟩
  case unwritten => exact step_fetch_error hrun hpending (fetch_of_accessFaults (.inl ⟨hstore, hp, hu, rfl⟩))
  case unmapped => exact step_fetch_error hrun hpending (fetch_of_accessFaults (.inr ⟨hstore, hu, rfl⟩))
  case unassigned => exact step_fetch_error hrun hpending (fetch_of_unassigned hb hge)

/-- R233: an operand byte that cannot be fetched stops the fetch, whatever stands in the bytes before it. -/
theorem fetch_of_operand_fault {s : State} {op : Opcode} {n k : Nat} {f : Fault} (hop : ReadsAs s s.pc op.byte n)
    (hpos : 1 ≤ k) (hk : k < op.format.length)
    (hreads : ∀ j, 1 ≤ j → j < k → ∃ v m, ReadsAs s (s.pc + BitVec.ofNat 16 j) v m)
    (hf : AccessFaults .fetch s (s.pc + BitVec.ofNat 16 k) f) : fetch s = .error f := by
  obtain ⟨k, rfl⟩ := Nat.exists_eq_add_of_le' hpos
  rw [fetch_of_opcode hop, bind_error_iff, fetchOperands_error_iff]
  refine .inl ⟨k, by omega, fun j hj => ?_, ?_⟩
  · have hread := hreads (j + 1) (by omega) (by omega)
    rw [add_ofNat_succ] at hread
    exact (exists_readsAs_congr (s := s) (t := opcodeFetched op.byte n s) rfl rfl).mpr hread
  · rw [add_ofNat_succ] at hf
    exact (accessFaults_congr (s := s) (t := opcodeFetched op.byte n s) rfl rfl).mpr hf

/-- R84: with all bytes there, a register byte with a non-zero high nibble faults. -/
theorem fetch_of_reserved {s : State} {op : Opcode} {b : Byte} {more : List Byte}
    (hreg : op.format.hasRegisterByte = true) (hlen : (op.byte :: b :: more).length = op.format.length)
    (hcode : CodeAt s (op.byte :: b :: more)) (hb : 16 ≤ b.toNat) :
    fetch s = .error (.reservedRegisterByte s.pc b) := by
  have hstored := codeAt_iff_storedAt.mp hcode
  have hoperands := fetchOperands_of_stored (s := opcodeFetched op.byte 0 s) hstored.tail
  have hdecode := decodeOperands_of_reserved hlen hreg (hiNibble_ne_zero_iff.mpr hb)
  rw [fetch_of_opcode hstored.head, ← hlen, bind_error_iff]
  exact .inr ⟨_, hoperands, by simp [decodeFetched, hdecode, faultOfDecodeError]⟩

/-- Settles O10: `fetch_of_operand_fault` and `fetch_of_reserved`. -/
theorem reservedRegisterByteFaults : Obligations.ReservedRegisterByteFaults :=
  ⟨fun _ _ _ _ _ hrun hpending hop hpos hk hreads hf =>
      step_fetch_error hrun hpending (fetch_of_operand_fault hop hpos hk hreads hf),
    fun _ _ _ _ hrun hpending hreg hlen hcode hb =>
      step_fetch_error hrun hpending (fetch_of_reserved hreg hlen hcode hb)⟩

/-- Every fault of a fetch is that of an access, or one of the two of decoding. -/
theorem fetch_error {s : State} {f : Fault} (h : fetch s = .error f) :
    (∃ a, AccessFaults .fetch s a f) ∨ (∃ b, f = .illegalOpcode s.pc b ∧ 42 ≤ b.toNat) ∨
    ∃ b, f = .reservedRegisterByte s.pc b ∧ 16 ≤ b.toNat := by
  rcases fetch_cases s with ⟨g, hg⟩ | ⟨b, n, hb, hge⟩ | ⟨op, n, hop⟩
  · rw [fetch_of_accessFaults hg] at h
    cases h
    exact .inl ⟨_, hg⟩
  · rw [fetch_of_unassigned hb hge] at h
    cases h
    exact .inr (.inl ⟨b, rfl, hge⟩)
  · rw [fetch_of_opcode hop, bind_error_iff, fetchOperands_error_iff] at h
    rcases h with ⟨k, -, -, hf⟩ | ⟨⟨bytes, u⟩, hfetch, hdecode⟩
    · exact .inl ⟨_, (accessFaults_congr (s := s) (t := opcodeFetched op.byte n s) rfl rfl).mp hf⟩
    · obtain ⟨hlen, -⟩ := fetchOperands_ok (s := opcodeFetched op.byte n s) hfetch
      have hpos := op.format.length_pos
      rcases decodeOperands_cases (op := op) (bytes := bytes) (by omega) with ⟨x, -, hx⟩ | ⟨b, more, rfl, hb, he⟩
      · simp [decodeFetched, hx] at hdecode
      · simp only [decodeFetched, he, faultOfDecodeError, Except.error.injEq] at hdecode
        exact .inr (.inr ⟨b, hdecode.symm, hiNibble_ne_zero_iff.mp hb⟩)

/-! ### The faults of an execution -/

/-- Settles O12: an instruction either goes on or is an access, and neither is refused. -/
theorem execNeverRefuses : Obligations.ExecNeverRefuses := by
  intro i s r
  cases i with
  | lda | getP | out | draw | sta | setP | call | ret => exact outcomeOf_not_refused _ r
  | _ => exact nofun

/-- R231: a fault of an execution, its cause, and the instructions that raise it. -/
def ExecFaultCause (i : Instr) (s : State) (f : Fault) : Prop :=
  (∃ a, f = .unmappedAccess a .read ∧ (regionOf a).isStorage = false ∧ s.config.unmapped = .fault ∧
    i.opcode ∈ [Opcode.lda, .getP, .ret]) ∨
  (∃ a, f = .unmappedAccess a .write ∧ (regionOf a).isStorage = false ∧ s.config.unmapped = .fault ∧
    i.opcode ∈ [Opcode.sta, .setP, .call]) ∨
  (∃ a v, f = .romWrite a v ∧ regionOf a = .rom ∧ s.config.romWrite = .fault ∧
    i.opcode ∈ [Opcode.sta, .setP, .call]) ∨
  (∃ a, f = .uninitialisedRead a ∧ (regionOf a).isStorage = true ∧ peek s a = none ∧ s.config.uninit = .fault ∧
    i.opcode ∈ [Opcode.lda, .getP, .ret, .out, .draw])

/-- A fault of a read; OUT and DRAW read in storage. -/
theorem ExecFaultCause.of_readFaults {i : Instr} {s : State} {a : Addr} {f : Fault} (h : ReadFaults s a f)
    (hop : i.opcode ∈ [Opcode.lda, .getP, .ret, .out, .draw])
    (hunmapped : (regionOf a).isStorage = false → i.opcode ∈ [Opcode.lda, .getP, .ret]) : ExecFaultCause i s f := by
  rcases h with ⟨hstore, hp, hu, rfl⟩ | ⟨hstore, hu, rfl⟩
  · exact .inr (.inr (.inr ⟨a, rfl, hstore, hp, hu, hop⟩))
  · exact .inl ⟨a, rfl, hstore, hu, hunmapped hstore⟩

theorem ExecFaultCause.of_writeFaults {i : Instr} {s : State} {a : Addr} {v : Byte} {f : Fault} (h : WriteFaults s a v f)
    (hop : i.opcode ∈ [Opcode.sta, .setP, .call]) : ExecFaultCause i s f := by
  rcases h with ⟨hrom, hp, rfl⟩ | ⟨hstore, hu, rfl⟩
  · exact .inr (.inr (.inl ⟨a, v, rfl, hrom, hp, hop⟩))
  · exact .inr (.inl ⟨a, rfl, hstore, hu, hop⟩)

theorem exec_fault_cause {i : Instr} {s : State} {f : Fault} (h : exec i s = .fault f) : ExecFaultCause i s f := by
  cases i with
  | lda | getP =>
    simp only [exec_lda, exec_getP, readThen_fault_iff] at h
    exact .of_readFaults h (by simp [Instr.opcode]) fun _ => by simp [Instr.opcode]
  | out | draw =>
    simp only [exec_out, exec_draw, readThen_fault_iff] at h
    exact .of_readFaults h (by simp [Instr.opcode]) fun hstore => by simp [Region.isStorage] at hstore
  | ret =>
    rcases exec_ret_fault_iff.mp h with hf | ⟨-, hf⟩ <;>
      exact .of_readFaults hf (by simp [Instr.opcode]) fun _ => by simp [Instr.opcode]
  | sta | setP =>
    simp only [exec_sta, exec_setP, writeThen_fault_iff] at h
    exact .of_writeFaults h (by simp [Instr.opcode])
  | call =>
    rcases exec_call_fault_iff.mp h with hf | ⟨-, hf⟩ <;> exact .of_writeFaults hf (by simp [Instr.opcode])
  | _ => cases h

/-- Settles O13: `exec_fault_cause`. -/
theorem execFaultsNameTheirCause : Obligations.ExecFaultsNameTheirCause :=
  fun _ _ _ => exec_fault_cause

/-- Under the other policies no access faults, so no execution does. -/
theorem not_exec_fault_of_permissive {i : Instr} {s : State} {f : Fault} (hperm : permissive s.config) :
    exec i s ≠ .fault f := by
  obtain ⟨hrom, hunmapped, huninit⟩ := hperm
  intro h
  have hcause := exec_fault_cause h
  simp [ExecFaultCause, hrom, hunmapped, huninit] at hcause

theorem not_accessFaults_of_permissive {kind : AccessKind} {s : State} {a : Addr} {f : Fault}
    (hperm : permissive s.config) : ¬ AccessFaults kind s a f := by
  obtain ⟨-, hunmapped, huninit⟩ := hperm
  simp [AccessFaults, hunmapped, huninit]

/-- The two ways a running machine faults: in its fetch, or in the execution of what it fetched. -/
theorem step_fault_cases {s : State} {f : Fault} (hrun : s.run = .running) (h : step s = .fault f) :
    fetch s = .error f ∨ ∃ i u, fetch s = .ok (i, u) ∧ exec i u = .fault f := by
  cases hpending : s.pendingInput with
  | some kind => simp [step, hrun, hpending] at h
  | none =>
    cases hfetch : fetch s with
    | error g =>
      rw [step_fetch_error hrun hpending hfetch] at h
      cases h
      exact .inl rfl
    | ok p => exact .inr ⟨p.1, p.2, rfl, (step_fetching hrun hpending hfetch).symm.trans h⟩

/-- Settles O14: neither an execution nor an access of the fetch faults, which leaves the two faults of decoding. -/
theorem permissiveMachineRaisesDecodeFaultsOnly : Obligations.PermissiveMachineRaisesDecodeFaultsOnly := by
  intro s f hperm hrun h
  rcases step_fault_cases hrun h with hfetch | ⟨i, u, hfetch, hexec⟩
  · exact (fetch_error hfetch).resolve_left fun ⟨a, hf⟩ => not_accessFaults_of_permissive hperm hf
  · have hu := (fetchChangesOnlyHiddenState s u i hfetch).1
    exact absurd hexec (not_exec_fault_of_permissive (by rw [hu]; exact hperm))

/-! ### What every step keeps -/

/-- What a step keeps, whoever takes it. -/
structure StepFrame (s t : State) : Prop where
  reserved : SameReservedStatus s t
  output : t.output = s.output ∨ ∃ kind b, t.output = s.output ++ [(kind, b)]
  config : t.config = s.config
  mem : ∃ l, StoredIn l s.mem t.mem

theorem ExecFrame.step {i : Instr} {s t : State} (h : ExecFrame i s t) : StepFrame s t where
  reserved := h.reserved
  output := h.output.imp_right And.right
  config := h.config
  mem := ⟨_, h.mem⟩

theorem step_frame {s t : State} (h : step s = .next t) : StepFrame s t := by
  rcases step_cases h with ⟨-, -, i, u, hfetch, hexec⟩ | ⟨-, kind, -, hexec⟩ | ⟨hrun, rfl⟩
  · have hframe := (exec_frame hexec).step
    rw [(fetchChangesOnlyHiddenState s u i hfetch).1] at hframe
    exact ⟨hframe.reserved, hframe.output, hframe.config, hframe.mem⟩
  · exact (exec_frame hexec).step
  · rw [hostTurn_eq hrun]
    exact ⟨rfl, .inl rfl, rfl, [], .refl⟩

/-- Settles O18: the field `output` of the two frames. -/
theorem outputLogOnlyGrows : Obligations.OutputLogOnlyGrows :=
  ⟨fun _ _ _ h hout hdraw => (exec_frame h).output.resolve_right fun ⟨hi, _⟩ => hi.elim hout hdraw,
    fun _ _ h => (step_frame h).output⟩

/-- Settles O21: what is stored is stored at a writable address, and ROM has none. -/
theorem romAndParametersNeverChange : Obligations.RomAndParametersNeverChange := by
  intro s t h
  obtain ⟨l, hmem⟩ := (step_frame h).mem
  refine ⟨(step_frame h).config, fun a ha => hmem.get_eq fun hw => ?_⟩
  rcases hw with hw | hw <;> simp [ha] at hw

/-- An instruction that stops the run leaves no input awaited, if none was. -/
theorem waitsForInputRunning_exec {i : Instr} {s t : State} (hrun : s.run = .running)
    (hstop : i = .hlt ∨ i = .endProgram → s.pendingInput = none) (h : exec i s = .next t) : waitsForInputRunning t := by
  have hpending := (exec_frame h).pendingInput
  intro hne
  rw [(exec_frame h).run]
  split
  case isTrue hi =>
    subst hi
    exact absurd (hpending.trans (hstop (.inl rfl))) hne
  case isFalse =>
    split
    case isTrue hi =>
      subst hi
      exact absurd (hpending.trans (hstop (.inr rfl))) hne
    case isFalse => exact hrun

theorem waitsForInputRunning_step {s t : State} (hs : waitsForInputRunning s) (h : step s = .next t) :
    waitsForInputRunning t := by
  rcases step_cases h with ⟨hrun, hpending, i, u, hfetch, hexec⟩ | ⟨hrun, kind, -, hexec⟩ | ⟨hrun, rfl⟩
  · have hu := (fetchChangesOnlyHiddenState s u i hfetch).1
    exact waitsForInputRunning_exec (by rw [hu]; exact hrun) (fun _ => by rw [hu]; exact hpending) hexec
  · exact waitsForInputRunning_exec hrun (by cases kind <;> simp [inputInstr]) hexec
  · rw [hostTurn_eq hrun]
    exact fun hne => absurd ((hs hne).symm.trans hrun) (by decide)

/-- Settles O20: what a step stores keeps memory canonical and in storage (`StoredIn`), and SR's unnamed bits stay. -/
theorem everyStepKeepsTheInvariant : Obligations.EveryStepKeepsTheInvariant := by
  intro s t hs h
  obtain ⟨hcanonical, hstored, hreserved, hinput⟩ := hs
  obtain ⟨l, hmem⟩ := (step_frame h).mem
  exact {
    memoryCanonical := hmem.wf hcanonical
    memoryStored := hmem.storageOnly hstored
    statusReserved := (step_frame h).reserved.trans hreserved
    inputRunning := waitsForInputRunning_step hinput h }

/-- Settles O19: the memory of the reset machine is empty, its flags are clear, and it is inside no instruction. -/
theorem resetMeetsTheInvariant : Obligations.ResetMeetsTheInvariant where
  memoryCanonical := wf_reset
  memoryStored := nofun
  statusReserved := rfl
  inputRunning := fun h => absurd rfl h

end Sys2Proof.Machine
end

section
/-! Reset, loading and the accesses by the parameters (10_state.md R40, 20_memory.md R52 to R56, 70_reset_and_hazards.md R260,
R263). -/

namespace Sys2Proof.Machine

/-! ### Faults and resets -/

theorem settle_of_fault {s : State} {f : Fault} (h : step s = .fault f) : settle s = faultedState f s := by
  simp [settle, h]

theorem step_of_faulted {s : State} {f : Fault} (h : s.run = .faulted f) : step s = .fault f := by
  simp [step, h]

/-- An unlisted address has no value, so the content of an address is what is listed. -/
theorem get_eq_find (m : Memory) (a : Nat) : Memory.get m a = Memory.find a m := by
  unfold Memory.get Memory.unlisted
  cases Memory.find a m <;> rfl

theorem find_filter (p : Nat → Bool) (m : Memory) (a : Nat) :
    Memory.find a (m.filter fun c => p c.1) = if p a then Memory.find a m else none := by
  induction m with
  | nil => simp [Memory.find]
  | cons c m ih =>
    obtain ⟨k, w⟩ := c
    by_cases hk : k = a
    · subst hk
      cases hp : p k <;> simp [Memory.find, hp, ih]
    · cases hp : p k <;> simp [Memory.find, hp, hk, ih]

theorem peek_resetState (s : State) (a : Addr) : peek (resetState s) a = if a.toNat < 0xC000 then peek s a else none := by
  have h := find_filter (fun k => k < 0xC000) s.mem a.toNat
  simpa [peek, get_eq_find, resetState] using h

/-- Settles O11: a fault leaves `faultedState`, whose step is the same fault; a reset is `State.reset` but for parameters, ROM
and the count of free values. -/
theorem faultChangesOnlyRun : Obligations.FaultChangesOnlyRun := by
  refine ⟨fun s f h => ?fault, fun s => ⟨rfl, rfl, rfl, rfl, rfl, rfl, peek_resetState s, rfl⟩⟩
  case fault =>
    have hsettle := settle_of_fault h
    refine ⟨hsettle, ?_⟩
    rw [hsettle, settle_of_fault (step_of_faulted (f := f) rfl)]
    rfl

/-- Settles O28: each value is a field of `State.reset`. -/
theorem resetValuesOfTheSpec : Obligations.ResetValuesOfTheSpec :=
  ⟨rfl, rfl, rfl, readReg_zero _, rfl, rfl, fun _ => rfl, rfl⟩

/-! ### Loading -/

/-- Loading changes memory only. -/
theorem loadRom_eq (image : List Host.Cell) (s : State) : loadRom image s = { s with mem := (loadRom image s).mem } := by
  unfold loadRom
  induction image generalizing s with
  | nil => rfl
  | cons c image ih =>
    rw [List.foldl_cons, ih]
    split <;> rfl

theorem find_eq_none_of_lt {m : Memory} {a : Nat} (h : ∀ c ∈ m, a < c.1) : Memory.find a m = none := by
  induction m with
  | nil => rfl
  | cons c m ih =>
    obtain ⟨hc, hm⟩ := List.forall_mem_cons.mp h
    simp [Memory.find, hc.ne', ih hm]

/-- The cells of an image with rising addresses are what ROM holds after loading; everything else stays. -/
theorem get_loadRom {image : Memory} (h : image.Pairwise fun c d => c.1 < d.1) (s : State) (a : Nat) :
    Memory.get (loadRom image s).mem a =
      if a < 0xC000 then (Memory.find a image).or (Memory.get s.mem a) else Memory.get s.mem a := by
  induction image generalizing s with
  | nil => simp [loadRom, Memory.find]
  | cons c image ih =>
    obtain ⟨k, v⟩ := c
    obtain ⟨hlt, himage⟩ := List.pairwise_cons.mp h
    have hload : loadRom ((k, v) :: image) s =
        loadRom image (if k < 0xC000 then { s with mem := Memory.set s.mem k v } else s) := rfl
    rw [hload, ih himage]
    by_cases ha : k = a
    · subst ha
      by_cases hk : k < 0xC000
      · simp [hk, Memory.find, find_eq_none_of_lt hlt, get_set_same]
      · simp [hk]
    · by_cases hk : k < 0xC000
      · simp [hk, Memory.find, ha, get_set_other s.mem k a v (Ne.symm ha)]
      · simp [hk, Memory.find, ha]

/-- Settles O29: loading into the empty memory of the reset machine leaves the image's cells. -/
theorem bootedRomReadsAsTheImage : Obligations.BootedRomReadsAsTheImage := by
  intro c image hwf
  have hboot := loadRom_eq image { State.reset with config := c }
  refine ⟨congrArg State.pc hboot, congrArg State.run hboot, congrArg State.config hboot, fun a => ?_⟩
  refine (get_loadRom hwf.1 _ a.toNat).trans ?_
  simp [get_eq_find, State.reset, Memory.find]

/-! ### Accesses -/

/-- Settles O31: the byte is stored, and a stored byte reads as it stands. -/
theorem writtenByteIsReadBack : Obligations.WrittenByteIsReadBack := by
  intro s a v ha
  obtain ⟨t, ht⟩ := exists_writeByte_ok v (.inl ha : Writable a ∨ WriteDropped s a)
  have hread : ReadsAs t a v 0 := .of_stored ha.isStorage (peek_of_writable ht ha)
  exact ⟨t, ht, sameMemoryBut_of_writeByte ht, fun kind => ⟨_, readByte_of_readsAs kind hread, fun _ => rfl⟩⟩

/-- R51 to R56: the storage ranges are ROM and RAM below the expansion range, and the mailboxes at the top. -/
theorem isStorage_iff (a : Addr) : (regionOf a).isStorage = true ↔ a.toNat ≤ 0xDFFF ∨ 0xFFFB ≤ a.toNat := by
  obtain ⟨hlow, hhigh⟩ := regionOf_bounds a
  cases hr : regionOf a with
  | rom | ram | mailbox =>
    simp only [hr, Region.first, Region.last] at hlow hhigh
    exact iff_of_true rfl (by omega)
  | expansion | undocumentedIo =>
    simp only [hr, Region.first, Region.last] at hlow hhigh
    exact iff_of_false nofun (by omega)

/-- Settles O32: the region of the address and the parameter decide between the cases of `WriteFaults`, `WriteDropped`,
`AccessFaults` and `ReadsAs`. -/
theorem accessesFollowTheParameters : Obligations.AccessesFollowTheParameters := by
  intro s a v kind
  refine ⟨fun ha => ?rom, fun ha => ?unmapped, fun ha hp => ?unwritten⟩
  case rom =>
    have hrom : regionOf a = .rom := (regionOf_eq_iff a .rom).mpr ⟨Nat.zero_le _, ha⟩
    refine ⟨fun h => writeByte_error_iff.mpr (.inl ⟨hrom, h, rfl⟩), fun h => ?_⟩
    have hdropped : WriteDropped s a := .inl ⟨hrom, h⟩
    obtain ⟨t, ht⟩ := exists_writeByte_ok v (.inr hdropped)
    exact ⟨t, ht, sameMemory_of_writeDropped ht hdropped⟩
  case unmapped =>
    have hstore : (regionOf a).isStorage = false := by
      rw [Bool.eq_false_iff, Ne, isStorage_iff]
      omega
    refine ⟨fun h => ⟨readByte_error_iff.mpr (.inr ⟨hstore, h, rfl⟩), writeByte_error_iff.mpr (.inr ⟨hstore, h, rfl⟩)⟩,
      fun h => ⟨⟨_, readByte_of_readsAs kind (.inr (.inr ⟨hstore, h, rfl, rfl⟩)), rfl, fun _ => rfl⟩, ?_⟩⟩
    have hdropped : WriteDropped s a := .inr ⟨hstore, h⟩
    obtain ⟨t, ht⟩ := exists_writeByte_ok v (.inr hdropped)
    exact ⟨t, ht, sameMemory_of_writeDropped ht hdropped⟩
  case unwritten =>
    have hstore := (isStorage_iff a).mpr ha
    exact ⟨fun h => readByte_error_iff.mpr (.inl ⟨hstore, hp, h, rfl⟩),
      fun h => ⟨_, readByte_of_readsAs kind (.inr (.inl ⟨hstore, hp, h, rfl, rfl⟩)), fun _ => rfl, rfl⟩⟩

end Sys2Proof.Machine
end

section
/-! The host: its turn while the machine waits, the end of a run, input and output (44_halt_end_io.md R181 to R186,
60_exceptions.md R234, R235, R245). -/

namespace Sys2Proof.Machine

/-- Settles O15: a waiting machine takes the host's turn, and a wake reads the run state alone. -/
theorem wakeOnlyResumesRunning : Obligations.WakeOnlyResumesRunning := by
  refine ⟨fun s h => ⟨?turn, by simp [deliverWake, h]⟩, fun s h => ?outside⟩
  case turn => rw [step_waiting h, hostTurn_eq h]
  case outside =>
    unfold deliverWake
    cases hr : s.run with
    | waiting => exact absurd hr h
    | running | ended | faulted => rfl

/-- Settles O16: `step` refuses in Ended, and a refusal leaves the state. -/
theorem endedMachineTakesNoStep : Obligations.EndedMachineTakesNoStep := by
  intro s h
  have hstep : step s = .refused .ended := by simp [step, h]
  exact ⟨hstep, by simp [settle, hstep], by simp [isFinal, h]⟩

/-- Settles O52: HLT and END are an advance of PC and a change of the run state. -/
theorem haltWaitsAndEndEnds : Obligations.HaltWaitsAndEndEnds :=
  fun _ => ⟨rfl, rfl⟩

/-! ### Input -/

/-- R183, R186: what the shared operation does, for every answer of the host and for none. -/
theorem inputEffect_takeInput (kind : IoKind) (answer : Option (Byte × Byte)) (s : State) :
    InputEffect kind (ioStatus kind) (ioData kind) answer s (takeInput kind answer s) := by
  cases answer with
  | none => rfl
  | some p =>
    obtain ⟨-, hstatus, hdata, hother⟩ := depositInput_frame kind p s
    exact ⟨hstatus, hdata, hother, takeInput_some_eq kind p s⟩

theorem exec_inputInstr_effect (kind : IoKind) (s : State) :
    ∃ t, exec (inputInstr kind) s = .next t ∧
      InputEffect kind (ioStatus kind) (ioData kind) (Config.hostInput kind s.draws) s t := by
  refine ⟨inputTurn kind s, by cases kind <;> rfl, inputEffect_takeInput kind _ s⟩

/-- A machine whose IN or GETC finds no answer waits on, one free value later. -/
theorem settle_unanswered {s : State} {kind : IoKind} (hrun : s.run = .running) (hpending : s.pendingInput = some kind)
    (hans : Config.hostInput kind s.draws = none) : settle s = { s with draws := s.draws + 1 } := by
  have hstep : step s = .next (inputTurn kind s) := by simp [step, hrun, hpending]
  simp [settle, hstep, inputTurn, hans, takeInput, countDraw, hpending]

/-- R267: as long as no answer comes the wait goes on. -/
theorem stateAfter_unanswered {s : State} {kind : IoKind} (n : Nat) (hrun : s.run = .running)
    (hpending : s.pendingInput = some kind) (hans : ∀ m, m < n → Config.hostInput kind (s.draws + m) = none) :
    stateAfter n s = { s with draws := s.draws + n } := by
  induction n generalizing s with
  | zero => rfl
  | succ n ih =>
    rw [stateAfter, settle_unanswered hrun hpending (hans 0 n.succ_pos)]
    have hlater m (hm : m < n) : Config.hostInput kind (s.draws + 1 + m) = none := by
      rw [add_assoc, add_comm 1]
      exact hans (m + 1) (Nat.succ_lt_succ hm)
    rw [ih (s := { s with draws := s.draws + 1 }) hrun hpending hlater, add_assoc, add_comm 1]

/-- Settles O53: one turn by `inputEffect_takeInput`, a wait of any length by `stateAfter_unanswered`. -/
theorem inputFillsItsMailbox : Obligations.InputFillsItsMailbox := by
  refine ⟨fun s => ⟨exec_inputInstr_effect .int s, exec_inputInstr_effect .char s, fun hrun hp => ?_, fun hrun hp => ?_⟩,
    fun s answer => ⟨inputEffect_takeInput .int answer s, inputEffect_takeInput .char answer s⟩,
    fun s kind n hrun hp => ⟨by simp [isFinal, hrun], ?wait⟩⟩
  · rw [step_awaiting hrun hp]
    exact exec_inputInstr_effect .int s
  · rw [step_awaiting hrun hp]
    exact exec_inputInstr_effect .char s
  case wait =>
    by_cases hans : ∃ m, m < n ∧ (Config.hostInput kind (s.draws + m)).isSome = true
    · exact .inl hans
    · refine .inr (stateAfter_unanswered n hrun hp fun m hm => ?_)
      simpa using fun h => hans ⟨m, hm, h⟩

/-! ### Output -/

/-- Settles O54: the mailbox byte is read, handed over, and PC advances. -/
theorem outputHandsOverTheByte : Obligations.OutputHandsOverTheByte := by
  intro s b h
  have hread : ReadsAs s ioOut b 0 := by
    rcases h with hp | ⟨hp, hu, hb⟩
    · exact .inl ⟨rfl, hp, rfl⟩
    · exact .inr (.inl ⟨rfl, hp, hu, hb, rfl⟩)
  exact ⟨⟨_, (exec_out s).trans (readThen_next_iff.mpr ⟨b, 0, hread, rfl⟩), rfl⟩,
    ⟨_, (exec_draw s).trans (readThen_next_iff.mpr ⟨b, 0, hread, rfl⟩), rfl⟩⟩

end Sys2Proof.Machine
end

section
/-! Results of the register instructions (41_arithmetic_shift.md, 42_jump_compare_branch.md R141, R142, 43_logic.md): the shape
each result takes is an effect of one of three shared operations. -/

namespace Sys2Proof.Machine

/-- Settles O27: R15 has no storage, so it reads as zero and a write to it is no write. -/
theorem zeroRegisterIsFixed : Obligations.ZeroRegisterIsFixed :=
  fun s _ => ⟨readReg_zero s, rfl⟩

/-! ### Frames -/

/-- A register written and PC advanced, whatever becomes of SR and of the hidden registers. -/
theorem registerEffect_of_writeReg (f : Format) (rd : Reg) (v : Byte) (s : State) (sr ir : Byte) (mar : Addr) (mdr : Byte)
    (draws : Nat) :
    RegisterEffect rd v f.length s
      { advance f (writeReg rd v s) with sr := sr, ir := ir, mar := mar, mdr := mdr, draws := draws } :=
  ⟨readReg_writeReg_same rd v s, fun _ hr => readReg_writeReg_other v s hr, rfl, ⟨rfl, rfl⟩, ⟨rfl, rfl, rfl, rfl⟩,
    fun _ => rfl⟩

theorem arithmeticEffect_writeArithmetic (f : Format) (rd : Reg) {x : AluResult} (s : State)
    (hz : x.zero = decide (x.value = 0)) :
    ArithmeticEffect rd x.value x.carry f.length s (writeArithmetic f rd x s) :=
  ⟨registerEffect_of_writeReg f rd x.value s _ _ _ _ _, ⟨rfl, rfl, rfl, rfl⟩, sameReservedStatus_writeC_writeZ _ _ s,
    by simp [writeArithmetic, hz], by simp [writeArithmetic]⟩

theorem logicEffect_writeLogic (rd : Reg) (v : Byte) (s : State) : LogicEffect rd v s (writeLogic .frr rd v s) :=
  ⟨registerEffect_of_writeReg .frr rd v s _ _ _ _ _, ⟨rfl, rfl, rfl, rfl⟩, sameReservedStatus_writeZ _ s,
    by simp [writeLogic, Bool.beq_eq_decide_eq], by simp [writeLogic]⟩

/-! ### Addition and subtraction -/

theorem add8_zero (a b : Byte) : (add8 a b).zero = decide ((add8 a b).value = 0) := by
  rw [Bool.eq_iff_iff, add8_zero_iff, decide_eq_true_iff]

theorem sub8_zero (a b : Byte) : (sub8 a b).zero = decide ((sub8 a b).value = 0) := by
  rw [Bool.eq_iff_iff, sub8_zero_iff, decide_eq_true_iff]

/-- Settles O43: the effect of `writeArithmetic` at `add8`. -/
theorem additionsWriteSumAndFlags : Obligations.AdditionsWriteSumAndFlags :=
  ⟨fun rd _ s => ⟨rfl, _, rfl, arithmeticEffect_writeArithmetic .frr rd s (add8_zero _ _)⟩,
    fun rd _ s => ⟨rfl, _, rfl, arithmeticEffect_writeArithmetic .fri rd s (add8_zero _ _)⟩⟩

/-- Settles O44: the effect of `writeArithmetic` at `sub8`. -/
theorem subtractionsWriteDifferenceAndFlags : Obligations.SubtractionsWriteDifferenceAndFlags :=
  ⟨fun rd _ s => ⟨rfl, _, rfl, arithmeticEffect_writeArithmetic .frr rd s (sub8_zero _ _)⟩,
    fun rd _ s => ⟨rfl, _, rfl, arithmeticEffect_writeArithmetic .fri rd s (sub8_zero _ _)⟩⟩

/-! ### Shifts -/

theorem iterate_shiftLeft_one (v : Byte) (n : Nat) : (fun x : Byte => x <<< 1)^[n] v = v <<< n := by
  induction n with
  | zero => simp
  | succ n ih => rw [Function.iterate_succ_apply', ih, BitVec.shiftLeft_add]

theorem iterate_shiftRight_one (v : Byte) (n : Nat) : (fun x : Byte => x >>> 1)^[n] v = v >>> n := by
  induction n with
  | zero => simp
  | succ n ih => rw [Function.iterate_succ_apply', ih, BitVec.shiftRight_add]

/-- R126: a count of 8 or more needs no case of its own. -/
theorem shiftLeft8_eq (v n : Byte) : shiftLeft8 v n = v <<< n.toNat := by
  unfold shiftLeft8
  split
  case isTrue => rfl
  case isFalse h => exact (BitVec.shiftLeft_eq_zero (Nat.le_of_not_lt h)).symm

/-- R127: a count of 8 or more needs no case of its own. -/
theorem shiftRight8_eq (v n : Byte) : shiftRight8 v n = v >>> n.toNat := by
  unfold shiftRight8
  split
  case isTrue => rfl
  case isFalse h => exact (BitVec.ushiftRight_eq_zero (Nat.le_of_not_lt h)).symm

/-- Settles O36: both are the shift by the whole count. -/
theorem shiftIsPerformedCountTimes : Obligations.ShiftIsPerformedCountTimes :=
  fun v n => ⟨(shiftLeft8_eq v n).trans (iterate_shiftLeft_one v n.toNat).symm,
    (shiftRight8_eq v n).trans (iterate_shiftRight_one v n.toNat).symm⟩

/-- R126 in natural numbers. -/
theorem shiftLeft8_eq_ofNat (v n : Byte) :
    shiftLeft8 v n = if n.toNat < 8 then BitVec.ofNat 8 (v.toNat * 2 ^ n.toNat) else 0x00 := by
  unfold shiftLeft8
  refine if_congr Iff.rfl ?_ rfl
  exact BitVec.eq_of_toNat_eq (by simp [Nat.shiftLeft_eq])

/-- R127 in natural numbers. -/
theorem shiftRight8_eq_ofNat (v n : Byte) :
    shiftRight8 v n = if n.toNat < 8 then BitVec.ofNat 8 (v.toNat / 2 ^ n.toNat) else 0x00 := by
  unfold shiftRight8
  refine if_congr Iff.rfl ?_ rfl
  have hlt : v.toNat / 2 ^ n.toNat < 2 ^ 8 := (Nat.div_le_self ..).trans_lt v.isLt
  apply BitVec.eq_of_toNat_eq
  rw [BitVec.toNat_ofNat, Nat.mod_eq_of_lt hlt, BitVec.toNat_ushiftRight, Nat.shiftRight_eq_div_pow]

/-- Settles O45: the effect of `writeLogic` at the two shifts. -/
theorem shiftsWriteResultAndZ : Obligations.ShiftsWriteResultAndZ := by
  intro rd rs s
  rw [← shiftLeft8_eq_ofNat, ← shiftRight8_eq_ofNat]
  exact ⟨⟨rfl, _, rfl, logicEffect_writeLogic rd _ s⟩, rfl, _, rfl, logicEffect_writeLogic rd _ s⟩

/-! ### Logic -/

/-- Settles O46: the effect of `writeLogic` at the three operations. -/
theorem logicWritesResultAndZ : Obligations.LogicWritesResultAndZ :=
  fun rd _ s => ⟨⟨rfl, _, rfl, logicEffect_writeLogic rd _ s⟩, ⟨rfl, _, rfl, logicEffect_writeLogic rd _ s⟩,
    rfl, _, rfl, logicEffect_writeLogic rd _ s⟩

theorem not_eq_ofNat (v : Byte) : ~~~ v = BitVec.ofNat 8 (255 - v.toNat) := by
  have hv := v.isLt
  apply BitVec.eq_of_toNat_eq
  rw [BitVec.toNat_not, BitVec.toNat_ofNat]
  omega

/-- Settles O47: the effect of `writeLogic` at the complement. -/
theorem notComplementsTheSecondRegister : Obligations.NotComplementsTheSecondRegister := by
  intro rd rs s
  rw [← not_eq_ofNat]
  exact ⟨_, rfl, logicEffect_writeLogic rd _ s⟩

/-! ### Comparison -/

theorem sub8_zero_eq_decide (a b : Byte) : (sub8 a b).zero = decide (a = b) := by
  rw [sub8_zero, sub8_value, Bool.eq_iff_iff, decide_eq_true_iff, decide_eq_true_iff]
  exact sub_eq_zero

theorem compareEffect_writeComparison (f : Format) (a b : Byte) (s : State) :
    CompareEffect a b f.length s (writeComparison f (sub8 a b) s) :=
  ⟨by simp [writeComparison, sub8_zero_eq_decide], by simp [writeComparison, sub8],
    sameReservedStatus_writeC_writeZ _ _ s, rfl⟩

/-- Settles O48: the effect of `writeComparison`. -/
theorem comparesWriteFlagsOnly : Obligations.ComparesWriteFlagsOnly :=
  ⟨fun _ _ s => ⟨_, rfl, compareEffect_writeComparison .frr _ _ s⟩,
    fun _ _ s => ⟨_, rfl, compareEffect_writeComparison .fri _ _ s⟩⟩

/-- Settles O37: with Z as equality and C as below, the six conditions are the six relations. -/
theorem conditionsAfterCompareAreUnsignedRelations : Obligations.ConditionsAfterCompareAreUnsignedRelations := by
  intro ra rb s
  obtain ⟨t, hexec, hz, hc, -, -⟩ := comparesWriteFlagsOnly.1 ra rb s
  refine ⟨t, hexec, ?_⟩
  simp only [hz, hc, condHolds, BitVec.toNat_eq, Bool.or_eq_true, Bool.and_eq_true, Bool.not_eq_true', decide_eq_true_iff,
    decide_eq_false_iff_not, Ne, true_and]
  omega

end Sys2Proof.Machine
end

section
/-! Data transfer, pointers, branches and subroutines (40_data_transfer.md, 42_jump_compare_branch.md R143 to R156,
45_subroutine.md, 46_pointer.md). -/

namespace Sys2Proof.Machine

/-! ### Loads, stores and moves -/

/-- Settles O39: a read that answers, then the register and PC. -/
theorem loadsReadTheirAddress : Obligations.LoadsReadTheirAddress := by
  refine ⟨fun rd addr s v n h => ?lda, fun rd s v n h => ?getP⟩
  case lda =>
    exact ⟨_, (exec_lda rd addr s).trans (readThen_next_iff.mpr ⟨v, n, h, rfl⟩),
      registerEffect_of_writeReg .fra rd v s _ _ _ _ _, rfl, rfl, rfl, rfl, rfl⟩
  case getP =>
    exact ⟨_, (exec_getP rd s).trans (readThen_next_iff.mpr ⟨v, n, h, rfl⟩),
      registerEffect_of_writeReg .fr rd v s _ _ _ _ _, rfl, rfl, rfl, rfl, rfl⟩

/-- Settles O40: a register written and PC advanced. -/
theorem movesWriteTheirValue : Obligations.MovesWriteTheirValue :=
  ⟨fun rd imm s => ⟨_, rfl, registerEffect_of_writeReg .fri rd imm s _ _ _ _ _, rfl, rfl, rfl, rfl, rfl⟩,
    fun rd rs s => ⟨_, rfl, registerEffect_of_writeReg .frr rd (readReg rs s) s _ _ _ _ _, rfl, rfl, rfl, rfl, rfl⟩⟩

/-- A write that completes and an advance of PC. -/
theorem storeEffect_of_writeByte (f : Format) {a : Addr} {v : Byte} {s u : State} (h : writeByte a v s = .ok u) :
    StoreEffect a v f.length s (advance f u) := by
  have hlands := writeLands_of_writeByte h
  refine ⟨hlands, ?_⟩
  rw [writeByte_ok_eq h]
  rfl

/-- Settles O41: `storeEffect_of_writeByte` at the address of each. -/
theorem storesWriteTheirAddress : Obligations.StoresWriteTheirAddress := by
  refine ⟨fun rs addr s h => ?sta, fun rs s h => ?setP⟩
  case sta =>
    obtain ⟨u, hu⟩ := exists_writeByte_ok (readReg rs s) h
    exact ⟨_, (exec_sta rs addr s).trans (writeThen_next_iff.mpr ⟨u, hu, rfl⟩), storeEffect_of_writeByte .fra hu⟩
  case setP =>
    obtain ⟨u, hu⟩ := exists_writeByte_ok (readReg rs s) h
    exact ⟨_, (exec_setP rs s).trans (writeThen_next_iff.mpr ⟨u, hu, rfl⟩), storeEffect_of_writeByte .fr hu⟩

/-- Settles O42: an instruction that is one access faults as the access does. -/
theorem loadsAndStoresStopOnAccessFaults : Obligations.LoadsAndStoresStopOnAccessFaults := by
  intro s r f
  simp only [exec_lda, exec_getP, exec_out, exec_draw, exec_sta, exec_setP, readThen_fault_iff, writeThen_fault_iff]
  exact ⟨fun _ h => h, id, fun h => ⟨h, h⟩, fun _ h => h, id⟩

/-! ### Pointers -/

/-- Settles O60: GP moves by `sext16`, which is the signed byte modulo 2^16. -/
theorem pointerUpdatesMoveGp : Obligations.PointerUpdatesMoveGp :=
  ⟨fun rs s => ⟨_, rfl, toNat_add_sext16 s.gp (readReg rs s), rfl⟩,
    fun imm s => ⟨_, rfl, toNat_add_sext16 s.gp imm, rfl⟩⟩

/-! ### Branches -/

/-- A conditional transfer whose condition is said in other words. -/
theorem branchEffect_of_branchIf {i : Instr} {c : Cond} {f : Format} {target : Addr} {s : State} {taken : Prop}
    (hexec : exec i s = .next (branchIf c f target s)) (htaken : taken ↔ condHolds c (flagZ s) (flagC s) = true) :
    BranchEffect i taken target f.length s := by
  refine ⟨fun h => ?_, fun h => ?_⟩
  · rw [hexec, branchIf, if_pos (htaken.mp h)]
  · rw [hexec, branchIf, if_neg (mt htaken.mpr h)]
    rfl

/-- Settles O50: `branchEffect_of_branchIf` with the condition of each branch. -/
theorem absoluteBranchesFollowTheirCondition : Obligations.AbsoluteBranchesFollowTheirCondition := by
  intro addr s
  refine ⟨branchEffect_of_branchIf (c := .eq) (f := .fa) rfl ?_, branchEffect_of_branchIf (c := .ne) (f := .fa) rfl ?_,
    branchEffect_of_branchIf (c := .le) (f := .fa) rfl ?_, branchEffect_of_branchIf (c := .ge) (f := .fa) rfl ?_,
    branchEffect_of_branchIf (c := .lt) (f := .fa) rfl ?_, branchEffect_of_branchIf (c := .gt) (f := .fa) rfl ?_⟩ <;>
  simp [condHolds]

theorem relativeTarget_eq (off : Byte) (s : State) :
    relativeTarget off s = (if s.config.relBranchBase = .next then s.pc + 2 else s.pc) + off.signExtend 16 := by
  unfold relativeTarget relativeBase
  cases s.config.relBranchBase <;> rfl

/-- Settles O51: `branchEffect_of_branchIf` with the target of R149. -/
theorem relativeBranchesFollowTheirCondition : Obligations.RelativeBranchesFollowTheirCondition := by
  intro off s target htarget
  rw [← relativeTarget_eq] at htarget
  subst htarget
  refine ⟨branchEffect_of_branchIf (c := .eq) (f := .fi) rfl ?_, branchEffect_of_branchIf (c := .ne) (f := .fi) rfl ?_,
    branchEffect_of_branchIf (c := .le) (f := .fi) rfl ?_, branchEffect_of_branchIf (c := .ge) (f := .fi) rfl ?_,
    branchEffect_of_branchIf (c := .lt) (f := .fi) rfl ?_, branchEffect_of_branchIf (c := .gt) (f := .fi) rfl ?_⟩ <;>
  simp [condHolds]

/-! ### Subroutines -/

/-- Settles O33: the effect of the push, and a pop of stored bytes. -/
theorem pushThenPopReturnsTheValue : Obligations.PushThenPopReturnsTheValue := by
  intro s v hfirst hsecond
  obtain ⟨t, ht⟩ := exists_push16_ok v (.inl hfirst) (.inl hsecond)
  have hpushed := pushed_of_push16 ht
  have hp := hpushed.first hfirst
  have hq := hpushed.second hsecond
  have hsp : t.sp = s.sp - 2 := by rw [hpushed.eq]
  have hconfig : t.config = s.config := by rw [hpushed.eq]
  have hpop := pop16_of_stored hsp hfirst hsecond (hconfig ▸ hp) (hconfig ▸ hq)
  refine ⟨t, _, ht, hsp, hpop, rfl, fun _ => rfl, fun horder => ?_, fun horder => ?_⟩ <;>
  · rw [horder] at hp hq
    exact ⟨hq, hp⟩

/-- Settles O55: the push of the return address, then the jump. -/
theorem callSavesTheReturnAddress : Obligations.CallSavesTheReturnAddress := by
  intro addr s first second hbytes hfirst hsecond
  obtain ⟨u, hu⟩ := exists_push16_ok (nextPc .fa s) hfirst hsecond
  have hpushed := pushed_of_push16 hu
  obtain ⟨rfl, rfl⟩ := Prod.mk.inj (hbytes.trans (returnBytes_eq s))
  refine ⟨_, exec_call_next_iff.mpr ⟨u, hu, rfl⟩, ?_, hpushed.frame, hpushed.first, hpushed.second,
    hpushed.firstDropped, hpushed.secondDropped⟩
  rw [hpushed.eq]

/-- Settles O56: the faults of the two pushes and of the two pops, in their order. -/
theorem subroutinesStopOnStackFaults : Obligations.SubroutinesStopOnStackFaults := by
  intro s f
  refine ⟨fun addr first second hbytes => ?call, fun h => exec_ret_fault_iff.mpr (.inl h),
    fun v n hv h => exec_ret_fault_iff.mpr (.inr ⟨⟨v, n, hv⟩, h⟩)⟩
  case call =>
    obtain rfl : first = (returnBytes s).1 := congrArg Prod.fst hbytes
    obtain rfl : second = (returnBytes s).2 := congrArg Prod.snd hbytes
    exact ⟨fun h => exec_call_fault_iff.mpr (.inl h), fun hfirst h => exec_call_fault_iff.mpr (.inr ⟨hfirst, h⟩)⟩

theorem joinPopped_eq (order : StackByteOrder) (lower higher : Byte) :
    joinPopped order lower higher = if order = .big then joinBytes lower higher else joinBytes higher lower := by
  cases order <;> rfl

/-- Settles O57: the pop of two bytes, then the jump. -/
theorem returnRestoresThePc : Obligations.ReturnRestoresThePc := by
  rintro s _ lower higher m n hlower rfl hhigher
  rw [← joinPopped_eq]
  exact exec_ret_next_iff.mpr ⟨_, _, pop16_ok_iff.mpr ⟨lower, higher, m, n, hlower, hhigher, rfl, rfl⟩, rfl⟩

/-- Settles O58: the pop gives the address that was pushed. -/
theorem callThenReturnComesBack : Obligations.CallThenReturnComesBack := by
  intro addr s hfirst hsecond
  obtain ⟨t, ht⟩ := exists_push16_ok (nextPc .fa s) (.inl hfirst) (.inl hsecond)
  have hpushed := pushed_of_push16 ht
  have hsp : t.sp = s.sp - 2 := by rw [hpushed.eq]
  have hconfig : t.config = s.config := by rw [hpushed.eq]
  have hregs : t.regs = s.regs := by rw [hpushed.eq]
  have hsr : t.sr = s.sr := by rw [hpushed.eq]
  have hgp : t.gp = s.gp := by rw [hpushed.eq]
  have hpop := pop16_of_stored (t := { t with pc := addr }) hsp hfirst hsecond
    (hconfig ▸ hpushed.first hfirst) (hconfig ▸ hpushed.second hsecond)
  refine ⟨_, _, exec_call_next_iff.mpr ⟨t, ht, rfl⟩, exec_ret_next_iff.mpr ⟨_, _, hpop, rfl⟩, rfl, rfl, rfl,
    fun r => readReg_congr hregs r, hsr, hgp, fun _ => rfl⟩

end Sys2Proof.Machine
end
